-- ==== Sys2Proof/Word.lean ====
section
/-! DEFINITION. The two word types of the block (spec/00_scope.md R8): 8-bit data and 16-bit addresses, both
unsigned. -/

namespace Sys2Proof

/-- A data cell, a data register, an immediate: 8 bits, unsigned (R8). -/
abbrev Byte := BitVec 8

/-- An address and the instruction pointer: 16 bits, unsigned (R8). -/
abbrev Addr := BitVec 16

end Sys2Proof
end

