-- ==== Sys2Proof/Config.lean ====
section
/-! DEFINITION. The implementation parameters of the block (spec/00_scope.md R9, R10, R11) and the values the
spec leaves open (spec/93_implementation_defined.md), each of the latter an opaque constant of which no proof
can learn the value. -/

namespace Sys2Proof

/-- The OPEN parameter `OPREG_ON_ADD` (R10): whether ADD leaves the operand register or writes its immediate
into it. -/
inductive OpregOnAdd where
  | unchanged
  | loadImmediate
deriving DecidableEq, Repr, Inhabited

/-- The parameters of one block; there is no other (R11). A State carries its block's (log 1, DESIGN CHOICE). -/
structure Config where
  /-- `MEM_SIZE`, the number of memory cells (R9); `Config.wellFormed` states its range. -/
  memSize : Nat
  /-- `OPREG_ON_ADD` (R10). -/
  opregOnAdd : OpregOnAdd
deriving DecidableEq, Repr

/-- The value of `OPREG_ON_ADD` in the reference configuration: the spec leaves it OPEN (R10, R84, D8), so it
has no value a proof could use (log 2, DESIGN CHOICE). -/
opaque Config.openOpregOnAdd : OpregOnAdd

/-- "the reference configuration uses 256 cells" (R9; log 3, DESIGN CHOICE for `State.reset`). -/
def Config.reference : Config := { memSize := 256, opregOnAdd := Config.openOpregOnAdd }

/-- Free value: `IP` in a Faulted state, one per draw (spec/60_exceptions.md R135, D7; log 5). -/
opaque Config.faultIp : Nat → Addr

/-- Free value: the text of the diagnostic line for an unrecognized opcode, which the spec does not give
(spec/42_output_halt.md R102; log 12). -/
opaque Config.diagnosticLine : Byte → String

end Sys2Proof
end

