-- ==== Sys2Proof/Syntax.lean ====
section
/-! DEFINITION. The decoded instruction (spec/30_encoding.md R70), one constructor per row of the opcode table,
and the five opcodes that select it (R64). -/

namespace Sys2Proof

/-- The decoded instruction: exactly the tagged variant of R70. -/
inductive Instr where
  /-- LDA, `LoadImmediate(value: u8)`. -/
  | loadImmediate (value : Byte)
  /-- ADD, `AddImmediate(value: u8)`. -/
  | addImmediate (value : Byte)
  /-- STA, `StoreAccumulator(address: u16)`. -/
  | storeAccumulator (address : Addr)
  /-- OUT, `Output`. -/
  | output
  /-- HLT, `Halt`. -/
  | halt
deriving DecidableEq, Repr

/-- The five opcodes of the opcode map (R64). -/
inductive Opcode where
  | lda
  | add
  | sta
  | out
  | hlt
deriving DecidableEq, Repr

/-- The verdict of decode: "a two-case result: decoded instruction, or a diagnostic condition naming the bad
byte" (R70). -/
inductive Verdict where
  | instr (i : Instr)
  | unrecognized (b : Byte)
deriving DecidableEq, Repr

/-- The opcode that selects an instruction (R64). -/
def Instr.opcode : Instr → Opcode
  | .loadImmediate _ => .lda
  | .addImmediate _ => .add
  | .storeAccumulator _ => .sta
  | .output => .out
  | .halt => .hlt

/-- The mnemonic of an opcode, as spec/opcode_table.json spells it. -/
def Opcode.mnemonic : Opcode → String
  | .lda => "LDA"
  | .add => "ADD"
  | .sta => "STA"
  | .out => "OUT"
  | .hlt => "HLT"

/-- The mnemonic of an instruction. -/
def Instr.mnemonic (i : Instr) : String := i.opcode.mnemonic

end Sys2Proof
end

