-- ==== Sys2Proof/WellFormed.lean ====
section
/-! DEFINITION. The checks on a configuration (spec/00_scope.md R9) and on an instruction (spec/30_encoding.md
R68). -/

namespace Sys2Proof

/-- `1 <= MEM_SIZE <= 65535`; a configuration outside it, 65536 cells included, is refused (R9, D2). -/
def Config.wellFormed (c : Config) : Bool := decide (1 ≤ c.memSize) && decide (c.memSize ≤ 65535)

/-- "no operand value of any instruction is illegal" (R68): the operand types already hold exactly the values
the formats admit, so no term of Instr is ill-formed. -/
def Instr.wellFormed : Instr → Bool
  | .loadImmediate _ => true
  | .addImmediate _ => true
  | .storeAccumulator _ => true
  | .output => true
  | .halt => true

end Sys2Proof
end

