-- ==== Sys2Proof/Decode.lean ====
section
/-! DEFINITION. The instruction decoder and the encoder (spec/30_encoding.md). Decode is written once, over any
source of bytes, as R65 writes it; the fetch unit runs it on memory, `decode` on a list of bytes. -/

namespace Sys2Proof

/-- The opcode byte of an opcode (R64). -/
def Opcode.byte : Opcode → Byte
  | .lda => 0x01
  | .add => 0x02
  | .sta => 0x03
  | .out => 0xFF
  | .hlt => 0x00

/-- The opcode map read from the byte: every other value is unrecognized (R64, R67). -/
def opcodeOf (b : Byte) : Option Opcode :=
  if b = 0x01 then some .lda
  else if b = 0x02 then some .add
  else if b = 0x03 then some .sta
  else if b = 0xFF then some .out
  else if b = 0x00 then some .hlt
  else none

/-- How many operand bytes follow the opcode byte (R64, R66). -/
def Opcode.operandBytes : Opcode → Nat
  | .lda => 1
  | .add => 1
  | .sta => 2
  | .out => 0
  | .hlt => 0

/-- The length of an instruction in bytes, known from its opcode alone (R60, R66). -/
def Instr.length (i : Instr) : Nat := 1 + i.opcode.operandBytes

/-- The address of format A: `(high_byte << 8) | low_byte`, the high byte at the lower address (R63). -/
def assembleAddress (hi lo : Byte) : Addr := (hi.setWidth 16 <<< 8) ||| lo.setWidth 16

/-- Address bits 15:8, the byte of format A at offset 1 (R61). -/
def addressHigh (a : Addr) : Byte := a.extractLsb' 8 8

/-- Address bits 7:0, the byte of format A at offset 2 (R61). -/
def addressLow (a : Addr) : Byte := a.extractLsb' 0 8

/-- The decode algorithm (R65) over a source of bytes, `read k` being the byte at offset `k` from the opcode.
It reads the opcode, then exactly the operand bytes the opcode asks for, in rising order; the first read that
fails ends it. -/
def decodeWith {ε : Type} (read : Nat → Except ε Byte) : Except ε Verdict :=
  match read 0 with
  | .error e => .error e
  | .ok op =>
    match opcodeOf op with
    | none => .ok (.unrecognized op)
    | some .out => .ok (.instr .output)
    | some .hlt => .ok (.instr .halt)
    | some .lda =>
      match read 1 with
      | .error e => .error e
      | .ok v => .ok (.instr (.loadImmediate v))
    | some .add =>
      match read 1 with
      | .error e => .error e
      | .ok v => .ok (.instr (.addImmediate v))
    | some .sta =>
      match read 1 with
      | .error e => .error e
      | .ok hi =>
        match read 2 with
        | .error e => .error e
        | .ok lo => .ok (.instr (.storeAccumulator (assembleAddress hi lo)))

/-- Why a list of bytes does not begin with an instruction. -/
inductive DecodeError where
  /-- The list ends before offset `offset`, which the instruction needs. -/
  | truncated (offset : Nat)
  /-- The opcode byte is none of the five (R67). -/
  | unrecognized (b : Byte)
deriving DecidableEq, Repr

/-- A list as a source of bytes for `decodeWith`. -/
def listSource (bs : List Byte) (k : Nat) : Except DecodeError Byte :=
  match bs[k]? with
  | some b => .ok b
  | none => .error (.truncated k)

/-- The decoder on any list of bytes: the instruction it begins with and the bytes after it, or the reason
there is none. -/
def decode (bs : List Byte) : Except DecodeError (Instr × List Byte) :=
  match decodeWith (listSource bs) with
  | .error e => .error e
  | .ok (.unrecognized b) => .error (.unrecognized b)
  | .ok (.instr i) => .ok (i, bs.drop i.length)

/-- The bytes of an instruction (formats N, I and A of R61). -/
def encode (i : Instr) : List Byte :=
  i.opcode.byte ::
    match i with
    | .loadImmediate v => [v]
    | .addImmediate v => [v]
    | .storeAccumulator a => [addressHigh a, addressLow a]
    | .output => []
    | .halt => []

/-- The three bytes, the longest instruction's, of a word of `nbits` bits numbered as the opcode table numbers
them: byte `k` is bits `8k + 7` to `8k`, every bit from `nbits` on is 0. -/
def wordBytes (nbits w : Nat) : List Byte :=
  let v := w % 2 ^ nbits
  [BitVec.ofNat 8 v, BitVec.ofNat 8 (v / 256), BitVec.ofNat 8 (v / 65536)]

/-- The instruction the decoder reads from such a word. -/
def decodeTableWord (nbits w : Nat) : Option Instr :=
  match decode (wordBytes nbits w) with
  | .ok (i, _) => some i
  | .error _ => none

end Sys2Proof
end

