-- ==== Sys2Proof/Machine/State.lean ====
section
/-! DEFINITION. The state of the block and of what its instructions reach (spec/10_state.md), the reasons a step
can end without a next state, and the state after reset (spec/70_reset_and_hazards.md R150). -/

namespace Sys2Proof.Machine

/-- One event of the observation channel (R31). -/
inductive Event where
  /-- `Out(v)`, sent by OUT. -/
  | out (v : Byte)
  /-- `HaltMsg`, sent by HLT. -/
  | haltMsg
  /-- `UnrecMsg(b)`, sent for the unrecognized opcode byte `b`. -/
  | unrecMsg (b : Byte)
deriving DecidableEq, Repr

/-- `RUN`, the state of the control sequencer (R29). -/
inductive Run where
  | running
  | halted
  /-- The unrecognized opcode byte `b` stopped the run. -/
  | unrecognized (b : Byte)
  /-- An access at `addr`, at or above `size = MEM_SIZE`, stopped the run. -/
  | faulted (addr : Addr) (size : Nat)
deriving DecidableEq, Repr

/-- The memory cells that hold a value, by strictly rising address (`Memory.wf`). A cell not listed holds no
value: the spec gives no cell a default (spec/20_memory.md R49; log 6, DESIGN CHOICE). -/
abbrev Memory := List Host.Cell

/-- The whole machine. The five fields of the Processor (R20), the run state (R29), the memory (R30), the
observation trace (R31) and the reset input (R33); the configuration it was built with (R9, R10; log 1); and
`draws`, the model's own count of free values drawn (log 5). -/
structure State where
  /-- `ACC`, the accumulator (R21). -/
  acc : Byte
  /-- `OPR`, the operand register (R22). -/
  opr : Byte
  /-- `IP`, the instruction pointer (R23). -/
  ip : Addr
  /-- `ZF`, the zero flag (R25). -/
  zf : Bool
  /-- `CF`, the carry flag (R26). -/
  cf : Bool
  /-- `RUN` (R29). -/
  run : Run
  /-- The memory cells (R30). -/
  mem : Memory
  /-- The observation trace, oldest event first (R31). -/
  trace : List Event
  /-- The level the host drives on `rst` (R33, R151). -/
  rst : Bool
  /-- The parameters of the block (R9, R10); no step changes them. -/
  cfg : Config
  /-- The model's own: how many values of `Config.faultIp` have been drawn. -/
  draws : Nat
deriving DecidableEq, Repr

/-- What stops the model with a fault. -/
inductive Fault where
  /-- Raised by a fetch from a cell in range to which neither the image nor a store has given a value (R49: the
  image gives every cell one, so no launch the spec allows comes here). Safe: the model stops where the
  hardware, whose cell holds some byte, goes on (log 6). -/
  | unwrittenCell (addr : Addr)
deriving DecidableEq, Repr

/-- What the model refuses. -/
inductive Refusal where
  /-- An instruction without a meaning, by its mnemonic; only an arm of `exec` could raise it, and none does.
  Safe. -/
  | notModelled (mnemonic : String)
  /-- Raised by a step of a block with MEM_SIZE outside 1 to 65535, which R9 and D2 refuse. Safe (log 4). -/
  | memorySizeOutOfRange
  /-- Raised by a step asked for in a stopped state with `rst` released: "the block takes no step" (R116; row 4
  of spec/93_implementation_defined.md says refuse). Safe (log 7). -/
  | stopped
  /-- Raised by a host access to memory during a run, which the host's duty rules out (R154; row 8 of
  spec/93_implementation_defined.md says refuse). Safe (log 14). -/
  | hostAccessDuringRun
  /-- Raised by a host access at an address that names no cell (R40). Safe (log 14). -/
  | hostAddressOutOfRange
deriving DecidableEq, Repr

/-- How a step of the machine ends. -/
abbrev Result := Host.Outcome State Fault Refusal

/-- The block just after construction with configuration `c` over the memory image `image`, `rst` released:
every field at the reset value of R150, no event sent yet (log 9). -/
def State.construct (c : Config) (image : Memory) : State where
  acc := 0
  opr := 0
  ip := 0
  zf := false
  cf := false
  run := .running
  mem := image
  trace := []
  rst := false
  cfg := c
  draws := 0

/-- The machine right after reset (R150), in the reference configuration, memory with nothing listed (R49). -/
def State.reset : State := State.construct Config.reference []

end Sys2Proof.Machine
end

