-- ==== Sys2Proof/Machine/Ops.lean ====
section
/-! DEFINITION. The named operations over the state: memory and its contract (spec/20_memory.md), the field
updates, the control primitives of spec/00_scope.md R14 and R15, the entry into a stop state and the way out of
it (spec/60_exceptions.md R135, R136), and the fetch of one instruction (spec/30_encoding.md R65). -/

namespace Sys2Proof.Machine

/-! ### Memory cells -/

/-- The byte the cell at `a` holds, if anything has given it one. -/
def Memory.cellAt : Memory → Nat → Option Byte
  | [], _ => none
  | (k, v) :: rest, a => if a = k then some v else Memory.cellAt rest a

/-- The memory with the cell at `a` holding `v`, every other cell as before, addresses still rising. -/
def Memory.setCell : Memory → Nat → Byte → Memory
  | [], a, v => [(a, v)]
  | (k, w) :: rest, a, v =>
    if a < k then (a, v) :: (k, w) :: rest
    else if a = k then (a, v) :: rest
    else (k, w) :: Memory.setCell rest a v

/-- The canonical form: addresses strictly rising. (An unlisted cell holds no value, so no entry can equal what
it reads as.) -/
def Memory.wf : Memory → Bool
  | [] => true
  | [_] => true
  | (a, _) :: (b, w) :: rest => decide (a < b) && Memory.wf ((b, w) :: rest)

/-- Every listed cell is one of `[0, n)`, the cells that exist when `n = MEM_SIZE` (R40). -/
def Memory.within (n : Nat) (m : Memory) : Bool := m.all fun c => decide (c.1 < n)

/-- Every cell of `[0, n)` holds a value: a whole initial image (R49). -/
def Memory.complete (n : Nat) (m : Memory) : Bool := (List.range n).all fun a => (Memory.cellAt m a).isSome

/-! ### Updates of one field -/

def State.setAcc (v : Byte) (s : State) : State := { s with acc := v }
def State.setOpr (v : Byte) (s : State) : State := { s with opr := v }
def State.setIp (a : Addr) (s : State) : State := { s with ip := a }
def State.setFlags (z c : Bool) (s : State) : State := { s with zf := z, cf := c }
def State.setMem (m : Memory) (s : State) : State := { s with mem := m }
def State.setRst (b : Bool) (s : State) : State := { s with rst := b }

/-- `Emit(e)`: appends `e` to the observation trace and changes no other state (R15). -/
def State.emit (e : Event) (s : State) : State := { s with trace := s.trace ++ [e] }

/-- `Stop(reason)`: ends the run with the given value of `RUN` (R15). -/
def State.stop (r : Run) (s : State) : State := { s with run := r }

/-- `IP` advanced by `n` bytes, on 16 bits (R65). -/
def State.advance (n : Nat) (s : State) : State := s.setIp (s.ip + BitVec.ofNat 16 n)

/-- A fresh 16-bit value for `IP`, which the spec leaves unspecified after a fault (R135; log 5). -/
def State.drawIp (s : State) : State := { s with ip := Config.faultIp s.draws, draws := s.draws + 1 }

/-! ### Accesses to memory -/

/-- Why an access gives no result. -/
inductive AccessError where
  /-- The condition `OutOfBoundsAddress(addr, MEM_SIZE)` (R132). -/
  | outOfBounds (addr : Addr)
  /-- The cell exists but nothing has given it a value (log 6). -/
  | unwritten (addr : Addr)
deriving DecidableEq, Repr

/-- `MemRead(addr, 1)` (R14, R41): no wrap and no clamp. -/
def memRead (s : State) (a : Addr) : Except AccessError Byte :=
  if a.toNat < s.cfg.memSize then
    match Memory.cellAt s.mem a.toNat with
    | some b => .ok b
    | none => .error (.unwritten a)
  else .error (.outOfBounds a)

/-- `MemWrite(addr, 1, v)` (R14, R42): one cell, or the error and no cell. -/
def memWrite (s : State) (a : Addr) (v : Byte) : Except AccessError State :=
  if a.toNat < s.cfg.memSize then .ok (s.setMem (Memory.setCell s.mem a.toNat v))
  else .error (.outOfBounds a)

/-! ### Stops and the way out of them -/

/-- Taking the `OutOfBoundsAddress` condition (R132, R135): `RUN` becomes Faulted(addr, MEM_SIZE), `IP` any
value, no event, everything else as the faulting instruction found it. -/
def raiseOutOfBounds (a : Addr) (s : State) : State := (s.stop (.faulted a s.cfg.memSize)).drawIp

/-- Taking the `UnrecognizedOpcode` condition for the byte `b` fetched at `IP` (R131, R135): `IP` past the
opcode, the event sent, `RUN` Unrecognized(b). -/
def stopUnrecognized (b : Byte) (s : State) : State := ((s.advance 1).emit (.unrecMsg b)).stop (.unrecognized b)

/-- Reset (R150), the only way out of a stop (R136): the five fields and `RUN` at their reset values; memory,
trace, configuration and the level on `rst` stay. -/
def applyReset (s : State) : State :=
  { State.construct s.cfg s.mem with trace := s.trace, rst := s.rst, draws := s.draws }

/-- An access error raised in a step that began in `s` (R15). -/
def raise (e : AccessError) (s : State) : Result :=
  match e with
  | .outOfBounds a => .next (raiseOutOfBounds a s)
  | .unwritten a => .fault (.unwrittenCell a)

/-- The end of a step that began in `s`, from the result of an operation that may raise (R15). -/
def orRaise (s : State) : Except AccessError State → Result
  | .ok t => .next t
  | .error e => raise e s

/-! ### Fetch and decode from memory -/

/-- `Decode()` (R65) on the bytes at `IP`: the verdict, or the first access that fails. `IP` is advanced by the
caller, by `Instr.length` or by 1. -/
def fetchDecode (s : State) : Except AccessError Verdict :=
  decodeWith fun k => memRead s (s.ip + BitVec.ofNat 16 k)

/-- The bytes `bs` put into the cells from `a` on, those in range (R40). -/
def placeBytes (n : Nat) : List Byte → Nat → Memory → Memory
  | [], _, m => m
  | b :: bs, a, m => placeBytes n bs (a + 1) (if a < n then Memory.setCell m a b else m)

end Sys2Proof.Machine
end

