-- ==== Sys2Proof/Machine/Operands.lean ====
section
/-! DEFINITION. The operand forms of the instruction set: the immediate (spec/30_encoding.md R62), the absolute
address (spec/41_store.md R91) and the accumulator (spec/10_state.md R21). There is no other. -/

namespace Sys2Proof.Machine

/-- The immediate of format I: "used as an 8-bit unsigned value with no extension, scaling or shift" (R62). -/
def immediate (v : Byte) : Byte := v

/-- "the effective address is the 16-bit operand itself, with no base register, index, displacement, scaling or
pre- or post-modification" (R91). -/
def effectiveAddress (a : Addr) : Addr := a

/-- The accumulator as a source: what ADD adds to, STA stores and OUT sends (R21). -/
def accumulator (s : State) : Byte := s.acc

end Sys2Proof.Machine
end

