-- ==== Sys2Proof/Machine/Flags.lean ====
section
/-! DEFINITION. The adder of the accumulator_alu with its carry and zero detection (spec/40_accumulator_alu.md
R80): the exact sum first, narrowed at the end. -/

namespace Sys2Proof.Machine

/-- The unbounded sum `s`, 0 to 510 (R80). -/
def aluSum (a v : Byte) : Nat := a.toNat + v.toNat

/-- The 8-bit result `r = s mod 256` (R80). -/
def aluResult (a v : Byte) : Byte := BitVec.ofNat 8 (aluSum a v % 256)

/-- The carry `c = (s > 255)` (R80, R26). -/
def aluCarry (a v : Byte) : Bool := decide (aluSum a v > 255)

/-- The zero indication `z = (r == 0)`, of the result after the wrap (R80, R25). -/
def aluZero (a v : Byte) : Bool := decide (aluResult a v = 0)

/-- What an ADD with immediate `v` leaves in `OPR` where it held `old` (R84). -/
def oprAfterAdd (p : OpregOnAdd) (old v : Byte) : Byte :=
  match p with
  | .unchanged => old
  | .loadImmediate => v

end Sys2Proof.Machine
end

