-- ==== Sys2Proof/Machine/Accumulator.lean ====
section
/-! DEFINITION. The accumulator instructions LDA and ADD (spec/40_accumulator_alu.md). The state operations are
apart from the meanings because the clocked sequencer runs them too (R119). -/

namespace Sys2Proof.Machine

/-- `ACC <- v` (R81). -/
def loadAccumulator (v : Byte) (s : State) : State := s.setAcc (immediate v)

/-- The pseudocode of R82: `CF`, `ACC` and `ZF` from the unbounded sum, then `OPR` as R84 says. -/
def addAccumulator (v : Byte) (s : State) : State :=
  let a := accumulator s
  let w := immediate v
  ((s.setFlags (aluZero a w) (aluCarry a w)).setAcc (aluResult a w)).setOpr
    (oprAfterAdd s.cfg.opregOnAdd s.opr w)

/-- LDA (R81). -/
def execLoadImmediate (v : Byte) (s : State) : Result := .next (loadAccumulator v s)

/-- ADD (R82). -/
def execAddImmediate (v : Byte) (s : State) : Result := .next (addAccumulator v s)

end Sys2Proof.Machine
end

