-- ==== Sys2Proof/Machine/Environment.lean ====
section
/-! DEFINITION. The instructions that act on the environment, OUT and HLT (spec/42_output_halt.md R103). -/

namespace Sys2Proof.Machine

/-- `Emit(Out(ACC))` (R100). -/
def outputAccumulator (s : State) : State := s.emit (.out (accumulator s))

/-- `IP <- MEM_SIZE; Emit(HaltMsg); Stop(Halted)` (R101). -/
def haltRun (s : State) : State := ((s.setIp (BitVec.ofNat 16 s.cfg.memSize)).emit .haltMsg).stop .halted

/-- OUT (R100). -/
def execOutput (s : State) : Result := .next (outputAccumulator s)

/-- HLT (R101). -/
def execHalt (s : State) : Result := .next (haltRun s)

end Sys2Proof.Machine
end

