-- ==== Sys2Proof/Machine/Store.lean ====
section
/-! DEFINITION. The store instruction STA (spec/41_store.md). -/

namespace Sys2Proof.Machine

/-- STA (R90): `MemWrite(addr, 1, ACC)`; out of bounds it takes the fault, no cell changed. -/
def execStoreAccumulator (a : Addr) (s : State) : Result :=
  orRaise s (memWrite s (effectiveAddress a) (accumulator s))

end Sys2Proof.Machine
end

