-- ==== Sys2Proof/Machine/Dispatch.lean ====
section
/-! DEFINITION. The execute phase, one arm per instruction (spec/43_control_sequencer.md R110). `IP` already
points past the instruction (spec/10_state.md R24). -/

namespace Sys2Proof.Machine

def exec (i : Instr) (s : State) : Host.Outcome State Fault Refusal :=
  match i with
  | .loadImmediate value => Sys2Proof.Machine.execLoadImmediate value s
  | .addImmediate value => Sys2Proof.Machine.execAddImmediate value s
  | .storeAccumulator address => Sys2Proof.Machine.execStoreAccumulator address s
  | .output => Sys2Proof.Machine.execOutput s
  | .halt => Sys2Proof.Machine.execHalt s

end Sys2Proof.Machine
end

