-- ==== Sys2Proof/Machine/Control.lean ====
section
/-! DEFINITION. The control sequencer at the level of whole instructions (spec/43_control_sequencer.md R110 to
R112, R116) and the run it drives (R111). -/

namespace Sys2Proof.Machine

/-- `Step()` (R110), taken when `RUN = Running`. -/
def runInstruction (s : State) : Result :=
  match fetchDecode s with
  | .ok (.instr i) => exec i (s.advance i.length)
  | .ok (.unrecognized b) => .next (stopUnrecognized b s)
  | .error e => raise e s

/-- One step of the block: a configuration out of range is refused (R9); while `rst = 1` the block takes its
reset values (R151); a Running block runs one instruction (R110); a stopped block takes no step (R116). -/
def controlStep (s : State) : Result :=
  if s.cfg.wellFormed then
    if s.rst then .next (applyReset s)
    else
      match s.run with
      | .running => runInstruction s
      | .halted => .refused .stopped
      | .unrecognized _ => .refused .stopped
      | .faulted _ _ => .refused .stopped
  else .refused .memorySizeOutOfRange

/-- The run has ended: `RUN != Running` (R115). -/
def Run.stopped : Run → Bool
  | .running => false
  | .halted => true
  | .unrecognized _ => true
  | .faulted _ _ => true

/-- The run of R111, at most `fuel` steps of it: while `RUN = Running`, step. -/
def runLoop : Nat → State → Result
  | 0, s => .next s
  | fuel + 1, s =>
    if s.run.stopped then .next s
    else
      match controlStep s with
      | .next t => runLoop fuel t
      | .fault f => .fault f
      | .refused r => .refused r

end Sys2Proof.Machine
end

