-- ==== Sys2Proof/Machine/Step.lean ====
section
/-! DEFINITION. The step of the machine and the placing of an instruction where it fetches next. -/

namespace Sys2Proof.Machine

/-- One architectural step (spec/00_scope.md R7). -/
def step (s : State) : Host.Outcome State Fault Refusal := controlStep s

/-- `s` with the instruction of the table word `w` in the cells from `IP` on, three bytes, the longest
instruction's, as the host writes a program before a run (spec/70_reset_and_hazards.md R153). -/
def State.withFetchWord (s : State) (nbits w : Nat) : State :=
  s.setMem (placeBytes s.cfg.memSize (wordBytes nbits w) s.ip.toNat s.mem)

end Sys2Proof.Machine
end

