-- ==== Sys2Proof/Machine/Assembly.lean ====
section
/-! DEFINITION. The spec's assembly lines (spec/30_encoding.md R71, D11), outside the block: no meaning uses
them. Text is a list of characters. -/

namespace Sys2Proof.Machine

/-- What one assembly line encodes (the table of R71). -/
inductive AsmItem where
  | lda (n : Nat)
  | add (n : Nat)
  | sta (m : Nat)
  | out
  | hlt
  | byte (n : Nat)
deriving DecidableEq, Repr

/-- The bounds of the table of R71. -/
def AsmItem.wellFormed : AsmItem → Bool
  | .lda n => decide (n ≤ 255)
  | .add n => decide (n ≤ 255)
  | .sta m => decide (m ≤ 65535)
  | .out => true
  | .hlt => true
  | .byte n => decide (n ≤ 255)

/-- The bytes of one line (R71). -/
def AsmItem.bytes : AsmItem → List Byte
  | .lda n => encode (.loadImmediate (BitVec.ofNat 8 n))
  | .add n => encode (.addImmediate (BitVec.ofNat 8 n))
  | .sta m => encode (.storeAccumulator (BitVec.ofNat 16 m))
  | .out => encode .output
  | .hlt => encode .halt
  | .byte n => [BitVec.ofNat 8 n]

/-- A line: its address, if it begins with one, and its item, if it is not blank or only a comment. -/
structure AsmLine where
  address : Option Nat
  item : Option AsmItem
deriving DecidableEq, Repr

/-- Why a text is no assembly. -/
inductive AsmError where
  /-- The line is none of the forms of R71. -/
  | badLine
  /-- A number outside the bounds of its form. -/
  | outOfRange
deriving DecidableEq, Repr

/-- The value of a digit in base 16, letters of either case (log 15). -/
def digitValue (c : Char) : Option Nat :=
  if '0' ≤ c ∧ c ≤ '9' then some (c.toNat - '0'.toNat)
  else if 'a' ≤ c ∧ c ≤ 'f' then some (c.toNat - 'a'.toNat + 10)
  else if 'A' ≤ c ∧ c ≤ 'F' then some (c.toNat - 'A'.toNat + 10)
  else none

/-- The digits `cs` in base `b`, after a number `acc` already read. -/
def parseDigits (b : Nat) : List Char → Nat → Option Nat
  | [], acc => some acc
  | c :: cs, acc =>
    match digitValue c with
    | some d => if d < b then parseDigits b cs (acc * b + d) else none
    | none => none

/-- "Numbers are decimal or `0x` hexadecimal" (R71), with any number of digits (log 15). -/
def parseNumber : List Char → Option Nat
  | [] => none
  | '0' :: 'x' :: [] => none
  | '0' :: 'x' :: cs => parseDigits 16 cs 0
  | cs => parseDigits 10 cs 0

/-- The line without its comment ("`;` starts a comment", R71). -/
def dropComment (cs : List Char) : List Char := cs.takeWhile fun c => c != ';'

/-- The words of a line, `w` being the word read so far, its last character first. -/
def splitWords : List Char → List Char → List (List Char)
  | [], w => if w.isEmpty then [] else [w.reverse]
  | c :: cs, w =>
    if c = ' ' ∨ c = '\t' then (if w.isEmpty then splitWords cs [] else w.reverse :: splitWords cs [])
    else splitWords cs (c :: w)

/-- An item with a number, checked against its bounds. -/
def numberItem (f : Nat → AsmItem) (cs : List Char) : Except AsmError AsmItem :=
  match parseNumber cs with
  | some n => if (f n).wellFormed then .ok (f n) else .error .outOfRange
  | none => .error .badLine

/-- The item of a line's words (R71); the mnemonics in capitals only (log 15). -/
def parseItem : List (List Char) → Except AsmError (Option AsmItem)
  | [] => .ok none
  | [w] =>
    if w = ['O', 'U', 'T'] then .ok (some .out)
    else if w = ['H', 'L', 'T'] then .ok (some .hlt)
    else .error .badLine
  | [w, n] =>
    if w = ['L', 'D', 'A'] then (numberItem .lda n).map some
    else if w = ['A', 'D', 'D'] then (numberItem .add n).map some
    else if w = ['S', 'T', 'A'] then (numberItem .sta n).map some
    else if w = ['.', 'b', 'y', 't', 'e'] then (numberItem .byte n).map some
    else .error .badLine
  | _ => .error .badLine

/-- The line without the blanks it begins with. -/
def dropBlanks (cs : List Char) : List Char := cs.dropWhile fun c => c == ' ' || c == '\t'

/-- "a line may begin with its address as `0xNNNN:`" (R71): the address, if there is one, and the rest. -/
def takeAddress : List Char → Option Nat × List Char
  | '0' :: 'x' :: a :: b :: c :: d :: ':' :: rest =>
    match parseDigits 16 [a, b, c, d] 0 with
    | some n => (some n, rest)
    | none => (none, '0' :: 'x' :: a :: b :: c :: d :: ':' :: rest)
  | cs => (none, cs)

/-- One line (R71): an optional address, then the item. -/
def parseLine (cs : List Char) : Except AsmError AsmLine :=
  let l := takeAddress (dropBlanks (dropComment cs))
  (parseItem (splitWords l.2 [])).map fun i => ⟨l.1, i⟩

/-- The bytes `bs` from address `a` on, in an image of cells. R71 is silent on bytes that land on one address and
on bytes past 0xFFFF: here the later line overwrites, and such a byte is listed under its own number, not wrapped
and no error (log 15, DESIGN CHOICE). -/
def placeItem : List Byte → Nat → Memory → Memory
  | [], _, m => m
  | b :: bs, a, m => placeItem bs (a + 1) (Memory.setCell m a b)

/-- The image of the lines, the next byte going to `at'` (log 15: from 0, each line after the one before, and a
line that is only an address moves the place of the next). -/
def assembleFrom : List AsmLine → Nat → Memory → Memory
  | [], _, m => m
  | l :: ls, at', m =>
    let a := l.address.getD at'
    match l.item with
    | some i => assembleFrom ls (a + i.bytes.length) (placeItem i.bytes a m)
    | none => assembleFrom ls a m

/-- The image of a program given as its lines. -/
def assemble (ls : List AsmLine) : Memory := assembleFrom ls 0 []

/-- The image of a program's text, one instruction a line (R71); the first bad line gives the error (log 15). -/
def assembleText (lines : List (List Char)) : Except AsmError Memory := (lines.mapM parseLine).map assemble

end Sys2Proof.Machine
end

