-- ==== Sys2Proof/Machine/Console.lean ====
section
/-! DEFINITION. The host's rendering of the observation channel as text lines (spec/42_output_halt.md R102),
outside the block; no meaning uses it. -/

namespace Sys2Proof.Machine

/-- The line of one event: "Output: " and the accumulator in decimal, "Program halted.", or the diagnostic line,
whose text the spec does not give (log 12). -/
def renderEvent : Event → String
  | .out v => "Output: " ++ toString v.toNat
  | .haltMsg => "Program halted."
  | .unrecMsg b => Config.diagnosticLine b

/-- The lines of a trace, in order. -/
def renderTrace (es : List Event) : List String := es.map renderEvent

end Sys2Proof.Machine
end

