-- ==== Sys2Proof/Machine/Boot.lean ====
section
/-! DEFINITION. The host's moves: the reset input (spec/70_reset_and_hazards.md R151), the writing of the image
before a run and the host's duty during one (R153, R154). No instruction and no step uses this file. -/

namespace Sys2Proof.Machine

/-- The host drives `rst` to 1; the next step takes the reset values (R151). -/
def assertReset (s : State) : State := s.setRst true

/-- The host releases `rst`; the block runs from the next step on (R153). -/
def releaseReset (s : State) : State := s.setRst false

/-- No run is on: `rst` is held, or the run has stopped (R153, R154; log 14). -/
def hostMayAccess (s : State) : Bool := s.rst || s.run.stopped

/-- The host writes one cell "directly into Memory" (R153); during a run it is refused (R154). -/
def hostWrite (a : Addr) (v : Byte) (s : State) : Result :=
  if a.toNat < s.cfg.memSize then
    if hostMayAccess s then .next (s.setMem (Memory.setCell s.mem a.toNat v)) else .refused .hostAccessDuringRun
  else .refused .hostAddressOutOfRange

/-- The host writes the bytes `bs` from address `a` on, the literal byte sequence of a program (R153). -/
def hostLoad : List Byte → Addr → State → Result
  | [], _, s => .next s
  | b :: bs, a, s =>
    match hostWrite a b s with
    | .next t => hostLoad bs (a + 1) t
    | .fault f => .fault f
    | .refused r => .refused r

/-- The host reads one cell after the stop (R154). -/
def hostRead (a : Addr) (s : State) : Host.Outcome Byte Fault Refusal :=
  if a.toNat < s.cfg.memSize then
    if hostMayAccess s then
      match Memory.cellAt s.mem a.toNat with
      | some b => .next b
      | none => .fault (.unwrittenCell a)
    else .refused .hostAccessDuringRun
  else .refused .hostAddressOutOfRange

end Sys2Proof.Machine
end

