-- ==== Sys2Proof/Machine/Ports.lean ====
section
/-! DEFINITION. What the outside sees of the architectural state: the status and inspection outputs
(spec/10_state.md R33, R34; spec/60_exceptions.md R130) and the observation of an ended run
(spec/43_control_sequencer.md R115). -/

namespace Sys2Proof.Machine

/-- The lines that carry nothing the spec gives a value to at some moments (R33; row 9 of
spec/93_implementation_defined.md). -/
inductive IdleLine where
  | memAddr
  | memWdata
  | memRdata
  | outData
  | unrecOpcode
  | faultAddr
deriving DecidableEq, Repr

end Sys2Proof.Machine

namespace Sys2Proof

/-- Free value: what such a line shows while the spec gives it no value (log 11); an 8-bit line shows its low
eight bits. -/
opaque Config.idleLine : Machine.IdleLine → Machine.State → Addr

end Sys2Proof

namespace Sys2Proof.Machine

/-- An 8-bit line while it carries nothing. -/
def idleByte (l : IdleLine) (s : State) : Byte := (Config.idleLine l s).extractLsb' 0 8

/-- `stop_reason`, the encoding of `RUN` (R130). -/
def stopReason (r : Run) : BitVec 2 :=
  match r with
  | .running => 0
  | .halted => 1
  | .unrecognized _ => 2
  | .faulted _ _ => 3

/-- `unrec_opcode`, "held while `RUN = Unrecognized`" (R33); otherwise unspecified (R150). -/
def unrecOpcodePort (s : State) : Byte :=
  match s.run with
  | .unrecognized b => b
  | .running => idleByte .unrecOpcode s
  | .halted => idleByte .unrecOpcode s
  | .faulted _ _ => idleByte .unrecOpcode s

/-- `fault_addr`, "held while `RUN = Faulted`" (R33); otherwise unspecified (R150). -/
def faultAddrPort (s : State) : Addr :=
  match s.run with
  | .faulted a _ => a
  | .running => Config.idleLine .faultAddr s
  | .halted => Config.idleLine .faultAddr s
  | .unrecognized _ => Config.idleLine .faultAddr s

/-- The inspection outputs (R33, R34). -/
structure Inspection where
  accO : Byte
  oprO : Byte
  ipO : Addr
  zfO : Bool
  cfO : Bool
deriving DecidableEq, Repr

/-- They "always show the present values of the five fields" (R34); reading them takes no step. -/
def inspect (s : State) : Inspection where
  accO := s.acc
  oprO := s.opr
  ipO := s.ip
  zfO := s.zf
  cfO := s.cf

/-- The observation of an ended run (R115). -/
structure Observation where
  run : Run
  acc : Byte
  opr : Byte
  ip : Addr
  zf : Bool
  cf : Bool
  mem : Memory
  trace : List Event
deriving DecidableEq, Repr

/-- The tuple of R115. -/
def observe (s : State) : Observation where
  run := s.run
  acc := s.acc
  opr := s.opr
  ip := s.ip
  zf := s.zf
  cf := s.cf
  mem := s.mem
  trace := s.trace

end Sys2Proof.Machine
end

