-- ==== Sys2Proof/Machine/Sequencer.lean ====
section
/-! DEFINITION. The reference clocked realisation of the control sequencer (spec/43_control_sequencer.md R119):
one memory access per clock cycle, with the block's ports (spec/10_state.md R33). It is the spec's own reference,
not normative: nothing in the architectural step rests on it (log 13). One `tick` is one period of `clk`. -/

namespace Sys2Proof.Machine

/-- The opcodes that go on to an operand cycle. -/
inductive OperandOpcode where
  | lda
  | add
  | sta
deriving DecidableEq, Repr

/-- The phases of R119, each with what the sequencer has latched. -/
inductive Phase where
  | fetch
  | opnd1 (op : OperandOpcode)
  | opnd2 (hi : Byte)
  | store (hi lo : Byte)
deriving DecidableEq, Repr

/-- The clocked block: the architectural state and the phase. In a stopped state the phase says nothing. -/
structure CycleState where
  arch : State
  phase : Phase
deriving DecidableEq, Repr

/-- How a clock cycle ends. -/
abbrev CycleResult := Host.Outcome CycleState Fault Refusal

/-- The memory access of a cycle. -/
inductive MemRequest where
  | idle
  | read (a : Addr)
  | write (a : Addr) (v : Byte)
deriving DecidableEq, Repr

/-- The sequencer works in this cycle: `rst = 0` and `RUN = Running` (R119, R151). -/
def CycleState.active (c : CycleState) : Bool := !c.arch.rst && !c.arch.run.stopped

/-- The access of the cycle (R119, column "memory access"). -/
def CycleState.request (c : CycleState) : MemRequest :=
  if c.active then
    match c.phase with
    | .fetch => .read c.arch.ip
    | .opnd1 _ => .read c.arch.ip
    | .opnd2 _ => .read c.arch.ip
    | .store hi lo => .write (assembleAddress hi lo) (accumulator c.arch)
  else .idle

/-- A cycle answered by `mem_oob = 1`: `RUN <- Faulted(addr, MEM_SIZE)`, nothing else, `IP` included (R119). -/
def cycleFault (a : Addr) (s : State) : CycleState := ⟨s.stop (.faulted a s.cfg.memSize), .fetch⟩

/-- The end of a cycle from the result of its access. -/
def endCycle (s : State) : Except AccessError CycleState → CycleResult
  | .ok c => .next c
  | .error (.outOfBounds a) => .next (cycleFault a s)
  | .error (.unwritten a) => .fault (.unwrittenCell a)

/-- FETCH, answered by the byte `op` (R119). -/
def fetchCycle (op : Byte) (s : State) : CycleState :=
  match opcodeOf op with
  | some .lda => ⟨s.advance 1, .opnd1 .lda⟩
  | some .add => ⟨s.advance 1, .opnd1 .add⟩
  | some .sta => ⟨s.advance 1, .opnd1 .sta⟩
  | some .out => ⟨outputAccumulator (s.advance 1), .fetch⟩
  | some .hlt => ⟨haltRun (s.advance 1), .fetch⟩
  | none => ⟨stopUnrecognized op s, .fetch⟩

/-- OPND1, answered by the byte `b` (R119). -/
def opnd1Cycle (op : OperandOpcode) (b : Byte) (s : State) : CycleState :=
  match op with
  | .lda => ⟨loadAccumulator b (s.advance 1), .fetch⟩
  | .add => ⟨addAccumulator b (s.advance 1), .fetch⟩
  | .sta => ⟨s.advance 1, .opnd2 b⟩

/-- A cycle of a Running block (R119, the four rows). -/
def activeCycle (c : CycleState) : CycleResult :=
  let s := c.arch
  match c.phase with
  | .fetch => endCycle s ((memRead s s.ip).map fun op => fetchCycle op s)
  | .opnd1 op => endCycle s ((memRead s s.ip).map fun b => opnd1Cycle op b s)
  | .opnd2 hi => endCycle s ((memRead s s.ip).map fun lo => ⟨s.advance 1, .store hi lo⟩)
  | .store hi lo =>
    endCycle s ((memWrite s (effectiveAddress (assembleAddress hi lo)) (accumulator s)).map fun t => ⟨t, .fetch⟩)

/-- One clock cycle: with `rst = 1` the reset values, whatever the phase (R151); in a stopped state nothing
changes (R112, R116). -/
def tick (c : CycleState) : CycleResult :=
  if c.arch.cfg.wellFormed then
    if c.arch.rst then .next ⟨applyReset c.arch, .fetch⟩
    else if c.arch.run.stopped then .next c
    else activeCycle c
  else .refused .memorySizeOutOfRange

/-- `n` clock cycles. -/
def ticks : Nat → CycleState → CycleResult
  | 0, c => .next c
  | n + 1, c =>
    match tick c with
    | .next d => ticks n d
    | .fault f => .fault f
    | .refused r => .refused r

/-- "Cycles per instruction: OUT 1, HLT 1, ..., LDA 2, ADD 2, STA 4" (R119). -/
def cyclesOf : Instr → Nat
  | .loadImmediate _ => 2
  | .addImmediate _ => 2
  | .storeAccumulator _ => 4
  | .output => 1
  | .halt => 1

/-! ### The ports of a cycle -/

/-- The ports of R33 in one clock cycle (`clk` is the tick itself). -/
structure Ports where
  rst : Bool
  memAddr : Addr
  memRe : Bool
  memWe : Bool
  memWdata : Byte
  memRdata : Byte
  memOob : Bool
  outValid : Bool
  outData : Byte
  haltMsg : Bool
  unrecValid : Bool
  unrecOpcode : Byte
  stopReason : BitVec 2
  faultAddr : Addr
  inspection : Inspection
deriving DecidableEq, Repr

/-- The opcode byte Memory answers a FETCH cycle with, if it does. -/
def CycleState.fetched (c : CycleState) : Option Byte :=
  if c.active then
    match c.phase with
    | .fetch => (memRead c.arch c.arch.ip).toOption
    | .opnd1 _ => none
    | .opnd2 _ => none
    | .store _ _ => none
  else none

/-- The opcode byte this FETCH cycle finds unrecognized, if it does. -/
def CycleState.badOpcode (c : CycleState) : Option Byte := c.fetched.filter fun b => (opcodeOf b).isNone

/-- `mem_addr` (R33). -/
def CycleState.memAddr (c : CycleState) : Addr :=
  match c.request with
  | .idle => Config.idleLine .memAddr c.arch
  | .read a => a
  | .write a _ => a

/-- `mem_re` (R33). -/
def CycleState.memRe (c : CycleState) : Bool :=
  match c.request with
  | .read _ => true
  | .idle => false
  | .write _ _ => false

/-- `mem_we` (R33). -/
def CycleState.memWe (c : CycleState) : Bool :=
  match c.request with
  | .write _ _ => true
  | .idle => false
  | .read _ => false

/-- `mem_wdata`, ACC during STA's write (R33). -/
def CycleState.memWdata (c : CycleState) : Byte :=
  match c.request with
  | .write _ v => v
  | .idle => idleByte .memWdata c.arch
  | .read _ => idleByte .memWdata c.arch

/-- `mem_rdata`, "meaningful only when `mem_oob = 0`" (R33). -/
def CycleState.memRdata (c : CycleState) : Byte :=
  match c.request with
  | .read a => ((memRead c.arch a).toOption).getD (idleByte .memRdata c.arch)
  | .idle => idleByte .memRdata c.arch
  | .write _ _ => idleByte .memRdata c.arch

/-- All the ports in the present cycle (R33, R119). The strobes are 1 in the FETCH cycle of their opcode. -/
def CycleState.ports (c : CycleState) : Ports where
  rst := c.arch.rst
  memAddr := c.memAddr
  memRe := c.memRe
  memWe := c.memWe
  memWdata := c.memWdata
  memRdata := c.memRdata
  memOob := decide (c.memAddr.toNat ≥ c.arch.cfg.memSize)
  outValid := decide (c.fetched = some Opcode.out.byte)
  outData := if c.fetched = some Opcode.out.byte then accumulator c.arch else idleByte .outData c.arch
  haltMsg := decide (c.fetched = some Opcode.hlt.byte)
  unrecValid := c.badOpcode.isSome
  unrecOpcode := c.badOpcode.getD (unrecOpcodePort c.arch)
  stopReason := Sys2Proof.Machine.stopReason c.arch.run
  faultAddr := faultAddrPort c.arch
  inspection := inspect c.arch

end Sys2Proof.Machine
end

