-- ==== Sys2Proof/Safety.lean ====
section
/-! DEFINITION. What counts as a good state and a good end of a run, in the terms the statements use. -/

namespace Sys2Proof.Machine

/-- What `RUN` says of the rest of the state: a Running block has fetched only cells (R24); after HLT `IP` is
the sentinel (R101); after an unrecognized opcode `b`, `b` is the byte before `IP` and none of the five (R131);
a fault record holds an address at or above its size, which is `MEM_SIZE` (R29, R132). -/
def State.runConsistent (s : State) : Bool :=
  match s.run with
  | .running => decide (s.ip.toNat ≤ s.cfg.memSize)
  | .halted => decide (s.ip.toNat = s.cfg.memSize)
  | .unrecognized b =>
    decide (opcodeOf b = none) && decide (1 ≤ s.ip.toNat) && decide (s.ip.toNat ≤ s.cfg.memSize)
      && decide (Memory.cellAt s.mem (s.ip.toNat - 1) = some b)
  | .faulted a n => decide (n = s.cfg.memSize) && decide (s.cfg.memSize ≤ a.toNat)

/-- The invariant of the machine: a configuration in range (R9), a memory in canonical form whose cells all
exist (R40), and a consistent `RUN`. -/
abbrev State.Inv (s : State) : Prop :=
  s.cfg.wellFormed = true ∧ Memory.wf s.mem = true ∧ Memory.within s.cfg.memSize s.mem = true ∧
    s.runConsistent = true

/-- The block is ready to run an instruction: a configuration in range, `rst` released, Running. -/
abbrev State.Ready (s : State) : Prop := s.cfg.wellFormed = true ∧ s.rst = false ∧ s.run = .running

/-- How a run has ended (R115): not yet, well, on the "normal, expected termination path" of an unrecognized
opcode, or with a fatal error. -/
inductive RunEnd where
  | notEnded
  | well
  | onUnrecognized
  | fatal
deriving DecidableEq, Repr

/-- The end that `RUN` tells (R115). -/
def Run.ending : Run → RunEnd
  | .running => .notEnded
  | .halted => .well
  | .unrecognized _ => .onUnrecognized
  | .faulted _ _ => .fatal

/-- A run ends with "a fatal error" (R115). -/
def State.endedFatally (s : State) : Bool := decide (s.run.ending = .fatal)

/-- The event that closes the trace of a run that ended so (R117). -/
def Run.closing : Run → List Event
  | .running => []
  | .halted => [.haltMsg]
  | .unrecognized b => [.unrecMsg b]
  | .faulted _ _ => []

/-- Memory holds the bytes `bs` in the cells from `a` on, all of them cells. -/
def State.holdsBytes (s : State) : List Byte → Nat → Bool
  | [], _ => true
  | b :: bs, a =>
    decide (a < s.cfg.memSize) && decide (Memory.cellAt s.mem a = some b) && s.holdsBytes bs (a + 1)

/-- `t` is `s` stopped by an out-of-bounds access at `a`: `RUN` says so, `IP` (and the model's count of draws) is
anything, the rest is as in `s` (R135). -/
def State.faultedAt (s : State) (a : Addr) (t : State) : Prop :=
  t = { s with run := .faulted a s.cfg.memSize, ip := t.ip, draws := t.draws }

/-- The fetch of `i` at `IP` faults at its first byte that lies at or above `MEM_SIZE` (R132, R134): with `k`
bytes of it in memory and the next one past the end, the step takes the fault at that byte's address. -/
def FetchRaises (i : Instr) (s : State) : Prop :=
  s.Ready → ∀ k, k < i.length → s.holdsBytes ((encode i).take k) s.ip.toNat = true →
    s.cfg.memSize ≤ s.ip.toNat + k →
    ∃ t, step s = .next t ∧ s.faultedAt (s.ip + BitVec.ofNat 16 k) t

/-- What no instruction reads: `OPR`, `ZF`, `CF` and the parameter that only `OPR` shows (R10, R22, R25, R26),
put to one value. -/
def State.hideUnread (s : State) : State :=
  { s with opr := 0, zf := false, cf := false, cfg := { s.cfg with opregOnAdd := .unchanged } }

/-- A step's result with the same hidden. -/
def hideUnread : Result → Result
  | .next s => .next s.hideUnread
  | .fault f => .fault f
  | .refused r => .refused r

/-- `u` is `t` but for the value of `IP` in a Faulted state, which the spec leaves open (R135), and the model's
own count of draws. -/
def State.sameButFaultIp (u t : State) : Prop :=
  if t.endedFatally then { u with ip := t.ip, draws := t.draws } = t else u = t

/-- Instructions executed one after another, with no fetch between them (R83). -/
def execAll : List Instr → State → Result
  | [], s => .next s
  | i :: is, s =>
    match exec i s with
    | .next t => execAll is t
    | .fault f => .fault f
    | .refused r => .refused r

end Sys2Proof.Machine
end

