-- ==== Sys2Proof/Certificates/Slice0/Obligations.lean ====
section
/-! DEFINITION. The statements for the provers, from the numbered rules of spec/. Where a clause rests on a choice
of the model the docstring names its log entry. A free value (`Config.faultIp`, `Config.openOpregOnAdd`,
`Config.idleLine`) is never compared with a value, so a statement holds whatever it is. -/

open Sys2Proof Sys2Proof.Machine

/-! ### The five instructions -/

/-- R81, the whole of LDA: its bytes; in execute ACC takes the immediate and nothing else changes; the step that
fetches it also moves IP by 2; its fetch can fault. -/
def Obligations.LdaLoadsItsImmediate : Prop :=
  ∀ (v : Byte) (s : State),
    exec (.loadImmediate v) s = .next { s with acc := v } ∧
    encode (.loadImmediate v) = [0x01, v] ∧
    (s.Ready → s.holdsBytes [0x01, v] s.ip.toNat = true →
      step s = .next { s with acc := v, ip := s.ip + 2 }) ∧
    FetchRaises (.loadImmediate v) s

/-- R82 and R84, the whole of ADD: ACC is the sum modulo 256, CF says the sum exceeded 255, ZF says the new ACC
is 0, OPR is left or loaded as `OPREG_ON_ADD` says (both values), and nothing else changes; the old flags and the
old OPR are no inputs; the step that fetches it also moves IP by 2; its fetch can fault. -/
def Obligations.AddAddsItsImmediate : Prop :=
  ∀ (v : Byte) (s : State),
    (∃ t, exec (.addImmediate v) s = .next t ∧
      t.acc.toNat = (s.acc.toNat + v.toNat) % 256 ∧
      (t.cf = true ↔ s.acc.toNat + v.toNat > 255) ∧
      (t.zf = true ↔ t.acc = 0) ∧
      (s.cfg.opregOnAdd = .unchanged → t.opr = s.opr) ∧
      (s.cfg.opregOnAdd = .loadImmediate → t.opr = v) ∧
      t = { s with acc := t.acc, opr := t.opr, zf := t.zf, cf := t.cf } ∧
      (s.Ready → s.holdsBytes [0x02, v] s.ip.toNat = true →
        step s = .next { t with ip := s.ip + 2 })) ∧
    encode (.addImmediate v) = [0x02, v] ∧
    FetchRaises (.addImmediate v) s

/-- R90, the whole of STA. In bounds: the cell at the effective address reads as ACC, every other cell as before,
nothing else changes, and the step that fetches it also moves IP by 3. Out of bounds: it takes the fault at the
operand address itself, not wrapped or clamped, no cell changes, and the same when the step fetches it. Its fetch
can fault too. -/
def Obligations.StaStoresOrFaults : Prop :=
  ∀ (a : Addr) (s : State),
    ((effectiveAddress a).toNat < s.cfg.memSize →
      ∃ t, exec (.storeAccumulator a) s = .next t ∧
        memRead t (effectiveAddress a) = .ok s.acc ∧
        (∀ b, b ≠ (effectiveAddress a).toNat → Memory.cellAt t.mem b = Memory.cellAt s.mem b) ∧
        t = { s with mem := t.mem } ∧
        (s.Ready → s.holdsBytes [0x03, addressHigh a, addressLow a] s.ip.toNat = true →
          step s = .next { t with ip := s.ip + 3 })) ∧
    (s.cfg.memSize ≤ a.toNat →
      (∃ t, exec (.storeAccumulator a) s = .next t ∧ s.faultedAt a t) ∧
      (s.Ready → s.holdsBytes [0x03, addressHigh a, addressLow a] s.ip.toNat = true →
        ∃ t, step s = .next t ∧ s.faultedAt a t)) ∧
    effectiveAddress a = a ∧
    encode (.storeAccumulator a) = [0x03, addressHigh a, addressLow a] ∧
    a.toNat = (addressHigh a).toNat * 256 + (addressLow a).toNat ∧
    FetchRaises (.storeAccumulator a) s

/-- R100, the whole of OUT: the event Out(ACC) is appended and nothing else changes; the step that fetches it
also moves IP by 1; in the block interface `out_valid` pulses with `out_data = ACC`; its fetch can fault. That the pulse is in
the FETCH cycle is the model's reading (log 13, DEDUCED). -/
def Obligations.OutEmitsTheAccumulator : Prop :=
  ∀ s : State,
    exec .output s = .next { s with trace := s.trace ++ [.out s.acc] } ∧
    encode .output = [0xFF] ∧
    (s.Ready → s.holdsBytes [0xFF] s.ip.toNat = true →
      step s = .next { s with trace := s.trace ++ [.out s.acc], ip := s.ip + 1 } ∧
      (CycleState.ports ⟨s, .fetch⟩).outValid = true ∧ (CycleState.ports ⟨s, .fetch⟩).outData = s.acc) ∧
    FetchRaises .output s

/-- R101, the whole of HLT: IP is MEM_SIZE, the event HaltMsg is appended, RUN is Halted, nothing else changes;
the step that fetches it leaves the same, wherever HLT stood; its fetch can fault. -/
def Obligations.HltStopsTheRun : Prop :=
  ∀ s : State,
    (∃ t, exec .halt s = .next t ∧
      (s.cfg.wellFormed = true → t.ip.toNat = s.cfg.memSize) ∧
      t = { s with ip := t.ip, trace := s.trace ++ [.haltMsg], run := .halted } ∧
      (s.Ready → s.holdsBytes [0x00] s.ip.toNat = true → step s = .next t)) ∧
    encode .halt = [0x00] ∧
    FetchRaises .halt s

/-- The frame of all five instructions, field by field (R20, R22, R25, R26, R43): what each leaves as it was. The
STA clauses use the effective address the meaning uses. -/
def Obligations.EveryInstructionFrame : Prop :=
  ∀ (i : Instr) (s t : State), exec i s = .next t →
    (i.opcode ≠ .lda → i.opcode ≠ .add → t.acc = s.acc) ∧
    (i.opcode ≠ .add → t.opr = s.opr ∧ t.zf = s.zf ∧ t.cf = s.cf) ∧
    (i.opcode = .add → s.cfg.opregOnAdd = .unchanged → t.opr = s.opr) ∧
    (i.opcode ≠ .out → i.opcode ≠ .hlt → t.trace = s.trace) ∧
    (i.opcode ≠ .hlt → i.opcode ≠ .sta → t.run = s.run ∧ t.ip = s.ip) ∧
    (i.opcode ≠ .sta → t.draws = s.draws ∧ ∀ b, memRead t b = memRead s b) ∧
    (∀ a, i = .storeAccumulator a → ∀ b, b ≠ effectiveAddress a → memRead t b = memRead s b) ∧
    t.rst = s.rst ∧ t.cfg = s.cfg

/-- R27: the flags describe the last ADD. A step that is not an ADD (nor a reset) leaves both; LDA sets ACC to
any value, 0 included, with both flags as they were. -/
def Obligations.FlagsDescribeTheLastAdd : Prop :=
  (∀ s t : State, step s = .next t → s.rst = false →
    (∀ v, fetchDecode s ≠ .ok (.instr (.addImmediate v))) → t.zf = s.zf ∧ t.cf = s.cf) ∧
  ∀ (v : Byte) (s : State), ∃ t, exec (.loadImmediate v) s = .next t ∧
    t.acc = v ∧ t.zf = s.zf ∧ t.cf = s.cf

/-- R80: the adder's result is the low eight bits of the exact sum, its carry the ninth, its zero output that of
the result. -/
def Obligations.AdderComputesNineBits : Prop :=
  ∀ a v : Byte,
    aluSum a v ≤ 510 ∧
    (aluResult a v).toNat = (a.toNat + v.toNat) % 256 ∧
    (∀ k, k < 8 → (aluResult a v).getLsbD k = (a.toNat + v.toNat).testBit k) ∧
    aluCarry a v = (a.toNat + v.toNat).testBit 8 ∧
    aluZero a v = decide ((a.toNat + v.toNat) % 256 = 0)

/-- A sequence of ADDs after an LDA (the inference of R83): ACC is the sum modulo 256, and the flags describe the
last addition alone. -/
def Obligations.AddsSumModulo256 : Prop :=
  ∀ (a : Byte) (vs : List Byte) (v : Byte) (s : State),
    ∃ t u, execAll (.loadImmediate a :: vs.map .addImmediate) s = .next t ∧
      exec (.addImmediate v) t = .next u ∧
      t.acc.toNat = (a.toNat + (vs.map BitVec.toNat).sum) % 256 ∧
      u.acc.toNat = (a.toNat + (vs.map BitVec.toNat).sum + v.toNat) % 256 ∧
      (u.cf = true ↔ (a.toNat + (vs.map BitVec.toNat).sum) % 256 + v.toNat > 255) ∧
      (u.zf = true ↔ (a.toNat + (vs.map BitVec.toNat).sum + v.toNat) % 256 = 0)

/-! ### Encoding -/

/-- Decoding an encoded instruction gives it back and leaves the bytes after it, for every instruction and every
value of its operand. -/
def Obligations.DecodeOfEncode : Prop :=
  ∀ (i : Instr) (rest : List Byte), i.wellFormed = true → decode (encode i ++ rest) = .ok (i, rest)

/-- What decodes to an instruction begins with that instruction's encoding. -/
def Obligations.EncodeOfDecode : Prop :=
  ∀ (bs rest : List Byte) (i : Instr), decode bs = .ok (i, rest) → bs = encode i ++ rest

/-- R64: the complete opcode map. Each of the five opcode bytes selects its instruction, with the operand bytes of
its format (STA's address big-endian) and whatever follows left over; any other first byte fails decode whatever
follows, and there are 251 of those (R67). -/
def Obligations.OpcodeMapIsComplete : Prop :=
  (∀ (v hi lo : Byte) (rest : List Byte),
    decode (0x01 :: v :: rest) = .ok (.loadImmediate v, rest) ∧
    decode (0x02 :: v :: rest) = .ok (.addImmediate v, rest) ∧
    (∃ a : Addr, decode (0x03 :: hi :: lo :: rest) = .ok (.storeAccumulator a, rest) ∧
      a.toNat = hi.toNat * 256 + lo.toNat) ∧
    decode (0xFF :: rest) = .ok (.output, rest) ∧
    decode (0x00 :: rest) = .ok (.halt, rest)) ∧
  (∀ (b : Byte) (rest : List Byte),
    decode (b :: rest) = .error (.unrecognized b) ↔ b ∉ [0x00, 0x01, 0x02, 0x03, 0xFF]) ∧
  ((List.range 256).filter fun n => (opcodeOf (BitVec.ofNat 8 n)).isNone).length = 251

/-- R66: the first byte alone fixes how many bytes an instruction has; a decoder needs exactly these, any part of
them being refused as cut short; and a step that goes on has advanced IP by exactly that many. -/
def Obligations.LengthIsKnownFromTheOpcode : Prop :=
  (∀ i : Instr, decode (encode i) = .ok (i, []) ∧
    ∀ k, k < (encode i).length → decode ((encode i).take k) = .error (.truncated k)) ∧
  (∀ i j : Instr, (encode i).head? = (encode j).head? → (encode i).length = (encode j).length) ∧
  (∀ (v : Byte) (a : Addr), (encode (.loadImmediate v)).length = 2 ∧ (encode (.addImmediate v)).length = 2 ∧
    (encode (.storeAccumulator a)).length = 3 ∧ (encode .output).length = 1 ∧ (encode .halt).length = 1) ∧
  (∀ (i : Instr) (s : State), s.Ready → s.holdsBytes (encode i) s.ip.toNat = true →
    ∀ t, step s = .next t → t.run = .running → t.ip = s.ip + BitVec.ofNat 16 (encode i).length)

/-- A few words written out from the encoding tables (R61, R63, R64) decode to what they stand for. -/
def Obligations.WordsDecodeAsTabled : Prop :=
  decode [0x01, 0x05] = .ok (.loadImmediate 5, []) ∧
  decode [0x02, 0x03] = .ok (.addImmediate 3, []) ∧
  decode [0x03, 0x12, 0x34] = .ok (.storeAccumulator 0x1234, []) ∧
  decode [0xFF] = .ok (.output, []) ∧
  decode [0x00] = .ok (.halt, []) ∧
  decode [0x04] = .error (.unrecognized 0x04)

/-! ### The step -/

/-- A step runs the decoded instruction: with the bytes of `i` at IP, the step is the execute phase of `i` with
IP past its bytes (R24, R65, R110). -/
def Obligations.StepRunsTheDecodedInstruction : Prop :=
  ∀ (s : State) (i : Instr), s.Ready → i.wellFormed = true → s.holdsBytes (encode i) s.ip.toNat = true →
    step s = exec i { s with ip := s.ip + BitVec.ofNat 16 (encode i).length }

/-- R131: an opcode byte that is none of the five stops the run: IP past the opcode, the event, RUN, and nothing
else. No hypothesis speaks of a cell but the opcode's, so it holds in the last cell too (R134). -/
def Obligations.UnrecognizedOpcodeStops : Prop :=
  ∀ (s : State) (b : Byte), s.Ready → s.ip.toNat < s.cfg.memSize →
    Memory.cellAt s.mem s.ip.toNat = some b → b ∉ [0x00, 0x01, 0x02, 0x03, 0xFF] →
    step s = .next { s with
      ip := s.ip + 1, trace := s.trace ++ [.unrecMsg b], run := .unrecognized b }

/-- R132: who raises the out-of-bounds condition. A step that ends Faulted was Running and took it at the opcode,
at an operand byte of an instruction whose earlier bytes it read, or at STA's operand address; the record holds
that address and MEM_SIZE; no event is emitted; and each of these does raise it. -/
def Obligations.OutOfBoundsHasTheseCausesOnly : Prop :=
  (∀ (s t : State) (a : Addr) (n : Nat), step s = .next t → t.run = .faulted a n →
    s.Ready ∧ n = s.cfg.memSize ∧ s.cfg.memSize ≤ a.toNat ∧ s.faultedAt a t ∧ t.trace = s.trace ∧
    (a = s.ip ∨
      (∃ i k, 1 ≤ k ∧ k < Instr.length i ∧ s.holdsBytes ((encode i).take k) s.ip.toNat = true ∧
        a.toNat = s.ip.toNat + k ∧ a.toNat = s.cfg.memSize) ∨
      s.holdsBytes (encode (.storeAccumulator a)) s.ip.toNat = true)) ∧
  (∀ (i : Instr) (s : State), FetchRaises i s) ∧
  ∀ (s : State) (a : Addr), s.Ready → s.holdsBytes (encode (.storeAccumulator a)) s.ip.toNat = true →
    s.cfg.memSize ≤ a.toNat → ∃ t, step s = .next t ∧ s.faultedAt a t

/-- R135: what each stop leaves, and that stops are precise: nothing else changes. That no later instruction runs
is said as the model has it: the step of a stopped block is refused by name (log 7, DEDUCED). -/
def Obligations.StopsArePrecise : Prop :=
  ∀ s t : State, step s = .next t → s.rst = false →
    (t.run = .halted → t.ip.toNat = s.cfg.memSize ∧
      t = { s with ip := t.ip, run := .halted, trace := s.trace ++ [.haltMsg] }) ∧
    (∀ b, t.run = .unrecognized b →
      t = { s with ip := s.ip + 1, run := .unrecognized b, trace := s.trace ++ [.unrecMsg b] }) ∧
    (∀ a n, t.run = .faulted a n →
      t = { s with ip := t.ip, draws := t.draws, run := .faulted a s.cfg.memSize } ∧ n = s.cfg.memSize) ∧
    (t.run ≠ .running → step t = .refused .stopped)

/-- R112: the transitions of RUN, row by row. Its last row, a stopped RUN unchanged by anything but reset, is said
as the model has it: no next state follows, since the step is refused (log 7, DEDUCED). -/
def Obligations.RunHasTheseTransitions : Prop :=
  ∀ s : State, s.cfg.wellFormed = true →
    (s.rst = true → ∃ t, step s = .next t ∧ t.run = .running) ∧
    (s.rst = false → s.run ≠ .running → ∀ t, step s ≠ .next t) ∧
    (s.Ready →
      (∀ i, fetchDecode s = .ok (.instr i) → i ≠ .halt →
        (∀ a, i = .storeAccumulator a → a.toNat < s.cfg.memSize) → ∃ t, step s = .next t ∧ t.run = .running) ∧
      (fetchDecode s = .ok (.instr .halt) → ∃ t, step s = .next t ∧ t.run = .halted) ∧
      (∀ b, fetchDecode s = .ok (.unrecognized b) → ∃ t, step s = .next t ∧ t.run = .unrecognized b) ∧
      (∀ a, fetchDecode s = .error (.outOfBounds a) →
        s.cfg.memSize ≤ a.toNat ∧ ∃ t, step s = .next t ∧ t.run = .faulted a s.cfg.memSize) ∧
      (∀ a, fetchDecode s = .ok (.instr (.storeAccumulator a)) → s.cfg.memSize ≤ a.toNat →
        ∃ t, step s = .next t ∧ t.run = .faulted a s.cfg.memSize))

/-- A stopped state is final until reset (the content of R116): the block takes no step, and under the clock of the
reference realisation nothing changes, no access is made and no strobe pulses in any number of cycles. That a step
is refused by name while a clock cycle keeps the state is the model's reading (log 7, DEDUCED). -/
def Obligations.StoppedIsFinalUntilReset : Prop :=
  ∀ s : State, s.cfg.wellFormed = true → s.rst = false → s.run ≠ .running →
    step s = .refused .stopped ∧
    ∀ (p : Phase) (n : Nat), ticks n ⟨s, p⟩ = .next ⟨s, p⟩ ∧
      (CycleState.ports ⟨s, p⟩).memRe = false ∧ (CycleState.ports ⟨s, p⟩).memWe = false ∧
      (CycleState.ports ⟨s, p⟩).outValid = false ∧ (CycleState.ports ⟨s, p⟩).haltMsg = false ∧
      (CycleState.ports ⟨s, p⟩).unrecValid = false

/-- IP does not wrap while a block runs (the inference of R24): past an instruction held in memory it is the sum,
at most MEM_SIZE. -/
def Obligations.IpAdvanceNeverWraps : Prop :=
  ∀ (s : State) (i : Instr), s.Ready → s.holdsBytes (encode i) s.ip.toNat = true →
    (s.ip + BitVec.ofNat 16 i.length).toNat = s.ip.toNat + i.length ∧
    s.ip.toNat + i.length ≤ s.cfg.memSize

/-- A store is seen by the very next fetch (the inference of R52): an STA to the cell after its own last byte,
with a byte that is no opcode in ACC, makes the next step stop at that byte. -/
def Obligations.NextFetchSeesTheStore : Prop :=
  ∀ (s : State) (a : Addr), s.Ready → s.holdsBytes (encode (.storeAccumulator a)) s.ip.toNat = true →
    a.toNat = s.ip.toNat + 3 → a.toNat < s.cfg.memSize → opcodeOf s.acc = none →
    ∃ t u, step s = .next t ∧ step t = .next u ∧ u.run = .unrecognized s.acc ∧
      u.trace = s.trace ++ [.unrecMsg s.acc]

/-! ### Invariants and runs -/

/-- Every step keeps the invariant: a configuration in range, a canonical memory of cells that exist, and a RUN
that agrees with IP and memory. -/
def Obligations.EveryStepKeepsTheInvariant : Prop :=
  ∀ s t : State, s.Inv → step s = .next t → t.Inv

/-- The invariant holds after reset, and after construction with any configuration in range over any canonical
image of cells that exist. -/
def Obligations.ConstructionMeetsTheInvariant : Prop :=
  State.reset.Inv ∧
  ∀ (c : Config) (image : Memory), c.wellFormed = true → Memory.wf image = true →
    Memory.within c.memSize image = true → (State.construct c image).Inv

/-- With a whole image (R49) no step of a ready block stops the model: it answers a next state, whose image is
whole too. -/
def Obligations.WholeImageNeverStopsTheModel : Prop :=
  ∀ s : State, s.Ready → Memory.complete s.cfg.memSize s.mem = true →
    ∃ t, step s = .next t ∧ Memory.complete t.cfg.memSize t.mem = true ∧ t.cfg = s.cfg

/-- Every run stops (the inference of R114): with a whole image, from IP on, within MEM_SIZE - IP + 1 steps; so
from address 0 within MEM_SIZE + 1. -/
def Obligations.EveryRunStops : Prop :=
  ∀ s : State, s.Ready → Memory.complete s.cfg.memSize s.mem = true →
    ∃ t, runLoop (s.cfg.memSize - s.ip.toNat + 1) s = .next t ∧ t.run.stopped = true

/-- The trace of a run (the inference of R117): what was there, then Out events, then at most one closing event,
which RUN tells. -/
def Obligations.TraceOfARun : Prop :=
  ∀ (n : Nat) (s t : State), s.run = .running → s.rst = false → runLoop n s = .next t →
    ∃ vs : List Byte, t.trace = s.trace ++ vs.map .out ++ t.run.closing

/-- No instruction reads OPR, ZF or CF (R22, R25, R26), nor anything OPREG_ON_ADD decides (R10): two states that
differ only there take steps that differ only there. -/
def Obligations.OprAndFlagsAreNeverRead : Prop :=
  ∀ s s' : State, s.hideUnread = s'.hideUnread → hideUnread (step s) = hideUnread (step s')

/-- No instruction reads the trace (R31): a longer past of it changes no step but by being there. -/
def Obligations.TraceIsNeverRead : Prop :=
  ∀ (es : List Event) (s t : State), step s = .next t →
    step { s with trace := es ++ s.trace } = .next { t with trace := es ++ t.trace }

/-- R118: only IP in a Faulted state is not determined: with another count of draws a step that answers a next
state answers one that agrees but there. -/
def Obligations.OnlyTheFaultIpIsOpen : Prop :=
  ∀ (d : Nat) (s t : State), step s = .next t →
    ∃ u, step { s with draws := d } = .next u ∧ ({ u with draws := t.draws } : State).sameButFaultIp t

/-! ### Reset, boot and the host -/

/-- R150: reset from any state, whatever RUN is: the five fields and RUN take their reset values, memory and
trace stay, the strobes are 0, reset twice is reset once, and construction has the same effect. What construction
leaves beside them is the model's choice: an empty trace (log 9), `rst` released (log 8) and the model's own
count of draws at 0 (log 5), each a DESIGN CHOICE. -/
def Obligations.ResetRestoresTheInitialState : Prop :=
  ∀ s : State, s.cfg.wellFormed = true → s.rst = true →
    ∃ t, step s = .next t ∧
      t = { s with acc := 0, opr := 0, ip := 0, zf := false, cf := false, run := .running } ∧
      step t = .next t ∧
      State.construct s.cfg s.mem = { t with trace := [], rst := false, draws := 0 } ∧
      ∀ p : Phase, (CycleState.ports ⟨t, p⟩).outValid = false ∧ (CycleState.ports ⟨t, p⟩).haltMsg = false ∧
        (CycleState.ports ⟨t, p⟩).unrecValid = false

/-- R152: what construction leaves, and that the first access after it is the fetch at address 0. That it leaves
`rst` released, so that this access comes at once, is the model's choice (log 8, DESIGN CHOICE). -/
def Obligations.FirstFetchIsAtZero : Prop :=
  ∀ (c : Config) (image : Memory), ∃ s, s = State.construct c image ∧
    s.acc = 0 ∧ s.opr = 0 ∧ s.ip = 0 ∧ s.zf = false ∧ s.cf = false ∧ s.run = .running ∧ s.mem = image ∧
    (CycleState.ports ⟨s, .fetch⟩).memRe = true ∧ (CycleState.ports ⟨s, .fetch⟩).memAddr = 0

/-- R9: the reference configuration has 256 cells; a block whose MEM_SIZE is outside 1 to 65535 is refused, 65536
cells included; no other is. That `State.reset` is the reference block is the model's choice (log 3, DESIGN
CHOICE), and that the refusal comes at the step is its reading (log 4, DEDUCED). -/
def Obligations.MemorySizeIsChecked : Prop :=
  State.reset.cfg.memSize = 256 ∧
  ∀ s : State,
    ((s.cfg.memSize < 1 ∨ 65535 < s.cfg.memSize) ↔ step s = .refused .memorySizeOutOfRange)

/-- R153: the host writes a program at address 0 under `rst = 1`, releases `rst`, and the block then holds the
program from IP 0 on, Running, the cells after it as they were. -/
def Obligations.BootPlacesTheProgram : Prop :=
  ∀ (s : State) (bs : List Byte), s.cfg.wellFormed = true → bs.length ≤ s.cfg.memSize →
    ∃ t u, step (assertReset s) = .next t ∧ hostLoad bs 0 t = .next u ∧
      (releaseReset u).Ready ∧ (releaseReset u).ip = 0 ∧ (releaseReset u).holdsBytes bs 0 = true ∧
      ∀ b, bs.length ≤ b → Memory.cellAt (releaseReset u).mem b = Memory.cellAt s.mem b

/-- R154: during a run the host can neither write nor read memory; after the stop it reads what memory holds. -/
def Obligations.HostWaitsForTheStop : Prop :=
  ∀ (s : State) (a : Addr) (v : Byte), a.toNat < s.cfg.memSize → s.rst = false →
    (s.run = .running → hostWrite a v s = .refused .hostAccessDuringRun ∧
      hostRead a s = .refused .hostAccessDuringRun) ∧
    (s.run ≠ .running → Memory.cellAt s.mem a.toNat = some v → hostRead a s = .next v)

/-- R130: the codes of `stop_reason` and the recorded values on `unrec_opcode` and `fault_addr`. -/
def Obligations.StopReasonCodes : Prop :=
  ∀ s : State,
    (s.run = .running ↔ stopReason s.run = 0) ∧ (s.run = .halted ↔ stopReason s.run = 1) ∧
    ((∃ b, s.run = .unrecognized b) ↔ stopReason s.run = 2) ∧
    ((∃ a n, s.run = .faulted a n) ↔ stopReason s.run = 3) ∧
    (∀ b, s.run = .unrecognized b → unrecOpcodePort s = b) ∧
    (∀ a n, s.run = .faulted a n → faultAddrPort s = a)

/-- The assembly lines of R71 encode what the table says: the bytes of a line in bounds decode to its
instruction, the operand with its value. -/
def Obligations.AssemblyLinesEncode : Prop :=
  (∀ n, (AsmItem.lda n).wellFormed = true →
    ∃ v, decode (AsmItem.lda n).bytes = .ok (.loadImmediate v, []) ∧ v.toNat = n) ∧
  (∀ n, (AsmItem.add n).wellFormed = true →
    ∃ v, decode (AsmItem.add n).bytes = .ok (.addImmediate v, []) ∧ v.toNat = n) ∧
  (∀ m, (AsmItem.sta m).wellFormed = true →
    ∃ a, decode (AsmItem.sta m).bytes = .ok (.storeAccumulator a, []) ∧ a.toNat = m) ∧
  decode AsmItem.out.bytes = .ok (.output, []) ∧ decode AsmItem.hlt.bytes = .ok (.halt, []) ∧
  (∀ n, (AsmItem.byte n).wellFormed = true → (AsmItem.byte n).bytes.map BitVec.toNat = [n])

/-! ### The reference clocked realisation -/

/-- R119: the clocked sequencer implements the architectural step: from FETCH, after one to four cycles, it is at
FETCH again in the state the step answers, but for IP in a Faulted state. That a stop leaves the phase at FETCH
is the model's reading (log 13, DEDUCED). -/
def Obligations.CyclesImplementTheStep : Prop :=
  ∀ s t : State, s.Ready → step s = .next t →
    ∃ n u, 1 ≤ n ∧ n ≤ 4 ∧ ticks n ⟨s, .fetch⟩ = .next ⟨u, .fetch⟩ ∧ u.sameButFaultIp t

/-- A whole run of steps is a run of cycles, at most four a step, to a state that agrees but for IP in a Faulted
state; FETCH as the phase of a stopped block is the model's reading (log 13, DEDUCED). -/
def Obligations.CyclesImplementTheRun : Prop :=
  ∀ (k : Nat) (s t : State), s.cfg.wellFormed = true → s.rst = false → runLoop k s = .next t →
    ∃ n u, n ≤ 4 * k ∧ ticks n ⟨s, .fetch⟩ = .next ⟨u, .fetch⟩ ∧ u.sameButFaultIp t

/-- The cycle counts of R119 (OUT 1, HLT 1, unrecognized opcode 1, LDA 2, ADD 2, STA 4): after exactly that many
cycles the completed instruction's state is reached at FETCH, and not at FETCH before. FETCH as the phase after
HLT and after an unrecognized opcode is the model's reading (log 13, DEDUCED). -/
def Obligations.CycleCountsOfTheReference : Prop :=
  (∀ (s t : State) (i : Instr), s.Ready → s.holdsBytes (encode i) s.ip.toNat = true → step s = .next t →
    t.endedFatally = false →
    ticks (cyclesOf i) ⟨s, .fetch⟩ = .next ⟨t, .fetch⟩ ∧
    ∀ m, 1 ≤ m → m < cyclesOf i → ∃ c, ticks m ⟨s, .fetch⟩ = .next c ∧ c.phase ≠ .fetch) ∧
  ∀ (s t : State) (b : Byte), s.Ready → fetchDecode s = .ok (.unrecognized b) → step s = .next t →
    ticks 1 ⟨s, .fetch⟩ = .next ⟨t, .fetch⟩

/-- R151: a reset in the middle of an STA that has not reached its STORE cycle writes no cell; while `rst = 1`
there is no access and no strobe, and the cycle leaves the reset values, whatever it was doing. That the phase is
then FETCH is the model's reading (log 13, DEDUCED). -/
def Obligations.ResetDiscardsAnUnfinishedStore : Prop :=
  (∀ (s : State) (a : Addr) (m : Nat), s.Ready →
    s.holdsBytes (encode (.storeAccumulator a)) s.ip.toNat = true → m ≤ 3 →
    ∃ c d, ticks m ⟨s, .fetch⟩ = .next c ∧ tick { c with arch := assertReset c.arch } = .next d ∧
      d.arch.mem = s.mem ∧ d.arch.ip = 0 ∧ d.arch.run = .running) ∧
  ∀ c : CycleState, c.arch.cfg.wellFormed = true → c.arch.rst = true →
    (∃ d, tick c = .next d ∧ d.phase = .fetch ∧ d.arch = applyReset c.arch) ∧
    c.ports.memRe = false ∧ c.ports.memWe = false ∧ c.ports.outValid = false ∧ c.ports.haltMsg = false ∧
    c.ports.unrecValid = false

/-- R33, R119: at most one of `mem_re` and `mem_we` is 1 in a cycle; a read is at IP, a write is of ACC (its address:
StoreCycleWritesTheOperandAddress); `out_data` is ACC with `out_valid`; the three strobes exclude each other; and
`mem_oob` is 1 exactly when what is on `mem_addr` is at or above MEM_SIZE. That this last holds in an idle cycle
too, where `mem_addr` is a free value, is the model's choice (log 11, DESIGN CHOICE). -/
def Obligations.PortsOfACycle : Prop :=
  ∀ c : CycleState,
    ¬ (c.ports.memRe = true ∧ c.ports.memWe = true) ∧
    (c.ports.memWe = true → c.ports.memWdata = c.arch.acc) ∧
    (c.ports.memRe = true → c.ports.memAddr = c.arch.ip) ∧
    (c.ports.memOob = true ↔ c.arch.cfg.memSize ≤ c.ports.memAddr.toNat) ∧
    ¬ (c.ports.outValid = true ∧ c.ports.haltMsg = true) ∧
    ¬ (c.ports.outValid = true ∧ c.ports.unrecValid = true) ∧
    ¬ (c.ports.haltMsg = true ∧ c.ports.unrecValid = true) ∧
    (c.ports.outValid = true → c.ports.outData = c.arch.acc)

/-- The strobes carry the events (R33): a clock cycle of a Running block with `rst = 0` that answers a next state
appends to the trace exactly the event its strobe shows, if any. That the strobe is in the very cycle that appends
the event, FETCH, is the model's reading (log 13, DEDUCED). -/
def Obligations.StrobesAreTheEvents : Prop :=
  ∀ c d : CycleState, c.arch.Ready → tick c = .next d →
    d.arch.trace = c.arch.trace ++
      (if c.ports.outValid = true then [.out c.ports.outData] else []) ++
      (if c.ports.haltMsg = true then [.haltMsg] else []) ++
      (if c.ports.unrecValid = true then [.unrecMsg c.ports.unrecOpcode] else [])

/-- The memory accesses of an STA in the reference sequence (R119, the STORE row): a write only ever comes in a STORE
cycle; there the latched `hi ++ lo` is on `mem_addr` and ACC on `mem_wdata`; and an STA held in memory reads its
three bytes in the first three cycles and writes at its operand address in the fourth, `mem_oob` saying whether
that is at or above MEM_SIZE. -/
def Obligations.StoreCycleWritesTheOperandAddress : Prop :=
  (∀ c : CycleState, c.ports.memWe = true → ∃ hi lo, c.phase = .store hi lo) ∧
  (∀ (s : State) (hi lo : Byte), s.Ready →
    (CycleState.ports ⟨s, .store hi lo⟩).memWe = true ∧
    (CycleState.ports ⟨s, .store hi lo⟩).memAddr.toNat = hi.toNat * 256 + lo.toNat ∧
    (CycleState.ports ⟨s, .store hi lo⟩).memWdata = s.acc) ∧
  ∀ (s : State) (a : Addr), s.Ready → s.holdsBytes (encode (.storeAccumulator a)) s.ip.toNat = true →
    (∀ m, m < 3 → ∃ c, ticks m ⟨s, .fetch⟩ = .next c ∧ c.ports.memRe = true ∧
      c.ports.memAddr = s.ip + BitVec.ofNat 16 m) ∧
    ∃ c, ticks 3 ⟨s, .fetch⟩ = .next c ∧ c.ports.memWe = true ∧ c.ports.memAddr = effectiveAddress a ∧
      c.ports.memWdata = s.acc ∧ (c.ports.memOob = true ↔ s.cfg.memSize ≤ a.toNat)
end

