-- ==== Sys2Proof/Laws/State.lean ====
section
/-! SUPPORT. One lemma per field of State per update and per state operation, each true by unfolding it once, so
that no later proof unfolds a record update. -/

namespace Sys2Proof.Machine

@[simp] theorem State.setAcc_acc (v : Byte) (s : State) : (s.setAcc v).acc = v := rfl
@[simp] theorem State.setAcc_opr (v : Byte) (s : State) : (s.setAcc v).opr = s.opr := rfl
@[simp] theorem State.setAcc_ip (v : Byte) (s : State) : (s.setAcc v).ip = s.ip := rfl
@[simp] theorem State.setAcc_zf (v : Byte) (s : State) : (s.setAcc v).zf = s.zf := rfl
@[simp] theorem State.setAcc_cf (v : Byte) (s : State) : (s.setAcc v).cf = s.cf := rfl
@[simp] theorem State.setAcc_run (v : Byte) (s : State) : (s.setAcc v).run = s.run := rfl
@[simp] theorem State.setAcc_mem (v : Byte) (s : State) : (s.setAcc v).mem = s.mem := rfl
@[simp] theorem State.setAcc_trace (v : Byte) (s : State) : (s.setAcc v).trace = s.trace := rfl
@[simp] theorem State.setAcc_rst (v : Byte) (s : State) : (s.setAcc v).rst = s.rst := rfl
@[simp] theorem State.setAcc_cfg (v : Byte) (s : State) : (s.setAcc v).cfg = s.cfg := rfl
@[simp] theorem State.setAcc_draws (v : Byte) (s : State) : (s.setAcc v).draws = s.draws := rfl

@[simp] theorem State.setOpr_acc (v : Byte) (s : State) : (s.setOpr v).acc = s.acc := rfl
@[simp] theorem State.setOpr_opr (v : Byte) (s : State) : (s.setOpr v).opr = v := rfl
@[simp] theorem State.setOpr_ip (v : Byte) (s : State) : (s.setOpr v).ip = s.ip := rfl
@[simp] theorem State.setOpr_zf (v : Byte) (s : State) : (s.setOpr v).zf = s.zf := rfl
@[simp] theorem State.setOpr_cf (v : Byte) (s : State) : (s.setOpr v).cf = s.cf := rfl
@[simp] theorem State.setOpr_run (v : Byte) (s : State) : (s.setOpr v).run = s.run := rfl
@[simp] theorem State.setOpr_mem (v : Byte) (s : State) : (s.setOpr v).mem = s.mem := rfl
@[simp] theorem State.setOpr_trace (v : Byte) (s : State) : (s.setOpr v).trace = s.trace := rfl
@[simp] theorem State.setOpr_rst (v : Byte) (s : State) : (s.setOpr v).rst = s.rst := rfl
@[simp] theorem State.setOpr_cfg (v : Byte) (s : State) : (s.setOpr v).cfg = s.cfg := rfl
@[simp] theorem State.setOpr_draws (v : Byte) (s : State) : (s.setOpr v).draws = s.draws := rfl

@[simp] theorem State.setIp_acc (a : Addr) (s : State) : (s.setIp a).acc = s.acc := rfl
@[simp] theorem State.setIp_opr (a : Addr) (s : State) : (s.setIp a).opr = s.opr := rfl
@[simp] theorem State.setIp_ip (a : Addr) (s : State) : (s.setIp a).ip = a := rfl
@[simp] theorem State.setIp_zf (a : Addr) (s : State) : (s.setIp a).zf = s.zf := rfl
@[simp] theorem State.setIp_cf (a : Addr) (s : State) : (s.setIp a).cf = s.cf := rfl
@[simp] theorem State.setIp_run (a : Addr) (s : State) : (s.setIp a).run = s.run := rfl
@[simp] theorem State.setIp_mem (a : Addr) (s : State) : (s.setIp a).mem = s.mem := rfl
@[simp] theorem State.setIp_trace (a : Addr) (s : State) : (s.setIp a).trace = s.trace := rfl
@[simp] theorem State.setIp_rst (a : Addr) (s : State) : (s.setIp a).rst = s.rst := rfl
@[simp] theorem State.setIp_cfg (a : Addr) (s : State) : (s.setIp a).cfg = s.cfg := rfl
@[simp] theorem State.setIp_draws (a : Addr) (s : State) : (s.setIp a).draws = s.draws := rfl

@[simp] theorem State.setFlags_acc (z c : Bool) (s : State) : (s.setFlags z c).acc = s.acc := rfl
@[simp] theorem State.setFlags_opr (z c : Bool) (s : State) : (s.setFlags z c).opr = s.opr := rfl
@[simp] theorem State.setFlags_ip (z c : Bool) (s : State) : (s.setFlags z c).ip = s.ip := rfl
@[simp] theorem State.setFlags_zf (z c : Bool) (s : State) : (s.setFlags z c).zf = z := rfl
@[simp] theorem State.setFlags_cf (z c : Bool) (s : State) : (s.setFlags z c).cf = c := rfl
@[simp] theorem State.setFlags_run (z c : Bool) (s : State) : (s.setFlags z c).run = s.run := rfl
@[simp] theorem State.setFlags_mem (z c : Bool) (s : State) : (s.setFlags z c).mem = s.mem := rfl
@[simp] theorem State.setFlags_trace (z c : Bool) (s : State) : (s.setFlags z c).trace = s.trace := rfl
@[simp] theorem State.setFlags_rst (z c : Bool) (s : State) : (s.setFlags z c).rst = s.rst := rfl
@[simp] theorem State.setFlags_cfg (z c : Bool) (s : State) : (s.setFlags z c).cfg = s.cfg := rfl
@[simp] theorem State.setFlags_draws (z c : Bool) (s : State) : (s.setFlags z c).draws = s.draws := rfl

@[simp] theorem State.setMem_acc (m : Memory) (s : State) : (s.setMem m).acc = s.acc := rfl
@[simp] theorem State.setMem_opr (m : Memory) (s : State) : (s.setMem m).opr = s.opr := rfl
@[simp] theorem State.setMem_ip (m : Memory) (s : State) : (s.setMem m).ip = s.ip := rfl
@[simp] theorem State.setMem_zf (m : Memory) (s : State) : (s.setMem m).zf = s.zf := rfl
@[simp] theorem State.setMem_cf (m : Memory) (s : State) : (s.setMem m).cf = s.cf := rfl
@[simp] theorem State.setMem_run (m : Memory) (s : State) : (s.setMem m).run = s.run := rfl
@[simp] theorem State.setMem_mem (m : Memory) (s : State) : (s.setMem m).mem = m := rfl
@[simp] theorem State.setMem_trace (m : Memory) (s : State) : (s.setMem m).trace = s.trace := rfl
@[simp] theorem State.setMem_rst (m : Memory) (s : State) : (s.setMem m).rst = s.rst := rfl
@[simp] theorem State.setMem_cfg (m : Memory) (s : State) : (s.setMem m).cfg = s.cfg := rfl
@[simp] theorem State.setMem_draws (m : Memory) (s : State) : (s.setMem m).draws = s.draws := rfl

@[simp] theorem State.setRst_acc (b : Bool) (s : State) : (s.setRst b).acc = s.acc := rfl
@[simp] theorem State.setRst_opr (b : Bool) (s : State) : (s.setRst b).opr = s.opr := rfl
@[simp] theorem State.setRst_ip (b : Bool) (s : State) : (s.setRst b).ip = s.ip := rfl
@[simp] theorem State.setRst_zf (b : Bool) (s : State) : (s.setRst b).zf = s.zf := rfl
@[simp] theorem State.setRst_cf (b : Bool) (s : State) : (s.setRst b).cf = s.cf := rfl
@[simp] theorem State.setRst_run (b : Bool) (s : State) : (s.setRst b).run = s.run := rfl
@[simp] theorem State.setRst_mem (b : Bool) (s : State) : (s.setRst b).mem = s.mem := rfl
@[simp] theorem State.setRst_trace (b : Bool) (s : State) : (s.setRst b).trace = s.trace := rfl
@[simp] theorem State.setRst_rst (b : Bool) (s : State) : (s.setRst b).rst = b := rfl
@[simp] theorem State.setRst_cfg (b : Bool) (s : State) : (s.setRst b).cfg = s.cfg := rfl
@[simp] theorem State.setRst_draws (b : Bool) (s : State) : (s.setRst b).draws = s.draws := rfl

@[simp] theorem State.emit_acc (e : Event) (s : State) : (s.emit e).acc = s.acc := rfl
@[simp] theorem State.emit_opr (e : Event) (s : State) : (s.emit e).opr = s.opr := rfl
@[simp] theorem State.emit_ip (e : Event) (s : State) : (s.emit e).ip = s.ip := rfl
@[simp] theorem State.emit_zf (e : Event) (s : State) : (s.emit e).zf = s.zf := rfl
@[simp] theorem State.emit_cf (e : Event) (s : State) : (s.emit e).cf = s.cf := rfl
@[simp] theorem State.emit_run (e : Event) (s : State) : (s.emit e).run = s.run := rfl
@[simp] theorem State.emit_mem (e : Event) (s : State) : (s.emit e).mem = s.mem := rfl
@[simp] theorem State.emit_trace (e : Event) (s : State) : (s.emit e).trace = s.trace ++ [e] := rfl
@[simp] theorem State.emit_rst (e : Event) (s : State) : (s.emit e).rst = s.rst := rfl
@[simp] theorem State.emit_cfg (e : Event) (s : State) : (s.emit e).cfg = s.cfg := rfl
@[simp] theorem State.emit_draws (e : Event) (s : State) : (s.emit e).draws = s.draws := rfl

@[simp] theorem State.stop_acc (r : Run) (s : State) : (s.stop r).acc = s.acc := rfl
@[simp] theorem State.stop_opr (r : Run) (s : State) : (s.stop r).opr = s.opr := rfl
@[simp] theorem State.stop_ip (r : Run) (s : State) : (s.stop r).ip = s.ip := rfl
@[simp] theorem State.stop_zf (r : Run) (s : State) : (s.stop r).zf = s.zf := rfl
@[simp] theorem State.stop_cf (r : Run) (s : State) : (s.stop r).cf = s.cf := rfl
@[simp] theorem State.stop_run (r : Run) (s : State) : (s.stop r).run = r := rfl
@[simp] theorem State.stop_mem (r : Run) (s : State) : (s.stop r).mem = s.mem := rfl
@[simp] theorem State.stop_trace (r : Run) (s : State) : (s.stop r).trace = s.trace := rfl
@[simp] theorem State.stop_rst (r : Run) (s : State) : (s.stop r).rst = s.rst := rfl
@[simp] theorem State.stop_cfg (r : Run) (s : State) : (s.stop r).cfg = s.cfg := rfl
@[simp] theorem State.stop_draws (r : Run) (s : State) : (s.stop r).draws = s.draws := rfl

@[simp] theorem State.advance_acc (n : Nat) (s : State) : (s.advance n).acc = s.acc := rfl
@[simp] theorem State.advance_opr (n : Nat) (s : State) : (s.advance n).opr = s.opr := rfl
@[simp] theorem State.advance_ip (n : Nat) (s : State) : (s.advance n).ip = s.ip + BitVec.ofNat 16 n := rfl
@[simp] theorem State.advance_zf (n : Nat) (s : State) : (s.advance n).zf = s.zf := rfl
@[simp] theorem State.advance_cf (n : Nat) (s : State) : (s.advance n).cf = s.cf := rfl
@[simp] theorem State.advance_run (n : Nat) (s : State) : (s.advance n).run = s.run := rfl
@[simp] theorem State.advance_mem (n : Nat) (s : State) : (s.advance n).mem = s.mem := rfl
@[simp] theorem State.advance_trace (n : Nat) (s : State) : (s.advance n).trace = s.trace := rfl
@[simp] theorem State.advance_rst (n : Nat) (s : State) : (s.advance n).rst = s.rst := rfl
@[simp] theorem State.advance_cfg (n : Nat) (s : State) : (s.advance n).cfg = s.cfg := rfl
@[simp] theorem State.advance_draws (n : Nat) (s : State) : (s.advance n).draws = s.draws := rfl

@[simp] theorem State.drawIp_acc (s : State) : s.drawIp.acc = s.acc := rfl
@[simp] theorem State.drawIp_opr (s : State) : s.drawIp.opr = s.opr := rfl
@[simp] theorem State.drawIp_ip (s : State) : s.drawIp.ip = Config.faultIp s.draws := rfl
@[simp] theorem State.drawIp_zf (s : State) : s.drawIp.zf = s.zf := rfl
@[simp] theorem State.drawIp_cf (s : State) : s.drawIp.cf = s.cf := rfl
@[simp] theorem State.drawIp_run (s : State) : s.drawIp.run = s.run := rfl
@[simp] theorem State.drawIp_mem (s : State) : s.drawIp.mem = s.mem := rfl
@[simp] theorem State.drawIp_trace (s : State) : s.drawIp.trace = s.trace := rfl
@[simp] theorem State.drawIp_rst (s : State) : s.drawIp.rst = s.rst := rfl
@[simp] theorem State.drawIp_cfg (s : State) : s.drawIp.cfg = s.cfg := rfl
@[simp] theorem State.drawIp_draws (s : State) : s.drawIp.draws = s.draws + 1 := rfl

@[simp] theorem raiseOutOfBounds_acc (a : Addr) (s : State) : (raiseOutOfBounds a s).acc = s.acc := rfl
@[simp] theorem raiseOutOfBounds_opr (a : Addr) (s : State) : (raiseOutOfBounds a s).opr = s.opr := rfl
@[simp] theorem raiseOutOfBounds_ip (a : Addr) (s : State) : (raiseOutOfBounds a s).ip = Config.faultIp s.draws := rfl
@[simp] theorem raiseOutOfBounds_zf (a : Addr) (s : State) : (raiseOutOfBounds a s).zf = s.zf := rfl
@[simp] theorem raiseOutOfBounds_cf (a : Addr) (s : State) : (raiseOutOfBounds a s).cf = s.cf := rfl
@[simp] theorem raiseOutOfBounds_run (a : Addr) (s : State) :
    (raiseOutOfBounds a s).run = .faulted a s.cfg.memSize := rfl
@[simp] theorem raiseOutOfBounds_mem (a : Addr) (s : State) : (raiseOutOfBounds a s).mem = s.mem := rfl
@[simp] theorem raiseOutOfBounds_trace (a : Addr) (s : State) : (raiseOutOfBounds a s).trace = s.trace := rfl
@[simp] theorem raiseOutOfBounds_rst (a : Addr) (s : State) : (raiseOutOfBounds a s).rst = s.rst := rfl
@[simp] theorem raiseOutOfBounds_cfg (a : Addr) (s : State) : (raiseOutOfBounds a s).cfg = s.cfg := rfl
@[simp] theorem raiseOutOfBounds_draws (a : Addr) (s : State) : (raiseOutOfBounds a s).draws = s.draws + 1 := rfl

@[simp] theorem stopUnrecognized_acc (b : Byte) (s : State) : (stopUnrecognized b s).acc = s.acc := rfl
@[simp] theorem stopUnrecognized_opr (b : Byte) (s : State) : (stopUnrecognized b s).opr = s.opr := rfl
@[simp] theorem stopUnrecognized_ip (b : Byte) (s : State) :
    (stopUnrecognized b s).ip = s.ip + BitVec.ofNat 16 1 := rfl
@[simp] theorem stopUnrecognized_zf (b : Byte) (s : State) : (stopUnrecognized b s).zf = s.zf := rfl
@[simp] theorem stopUnrecognized_cf (b : Byte) (s : State) : (stopUnrecognized b s).cf = s.cf := rfl
@[simp] theorem stopUnrecognized_run (b : Byte) (s : State) : (stopUnrecognized b s).run = .unrecognized b := rfl
@[simp] theorem stopUnrecognized_mem (b : Byte) (s : State) : (stopUnrecognized b s).mem = s.mem := rfl
@[simp] theorem stopUnrecognized_trace (b : Byte) (s : State) :
    (stopUnrecognized b s).trace = s.trace ++ [.unrecMsg b] := rfl
@[simp] theorem stopUnrecognized_rst (b : Byte) (s : State) : (stopUnrecognized b s).rst = s.rst := rfl
@[simp] theorem stopUnrecognized_cfg (b : Byte) (s : State) : (stopUnrecognized b s).cfg = s.cfg := rfl
@[simp] theorem stopUnrecognized_draws (b : Byte) (s : State) : (stopUnrecognized b s).draws = s.draws := rfl

@[simp] theorem applyReset_acc (s : State) : (applyReset s).acc = 0 := rfl
@[simp] theorem applyReset_opr (s : State) : (applyReset s).opr = 0 := rfl
@[simp] theorem applyReset_ip (s : State) : (applyReset s).ip = 0 := rfl
@[simp] theorem applyReset_zf (s : State) : (applyReset s).zf = false := rfl
@[simp] theorem applyReset_cf (s : State) : (applyReset s).cf = false := rfl
@[simp] theorem applyReset_run (s : State) : (applyReset s).run = .running := rfl
@[simp] theorem applyReset_mem (s : State) : (applyReset s).mem = s.mem := rfl
@[simp] theorem applyReset_trace (s : State) : (applyReset s).trace = s.trace := rfl
@[simp] theorem applyReset_rst (s : State) : (applyReset s).rst = s.rst := rfl
@[simp] theorem applyReset_cfg (s : State) : (applyReset s).cfg = s.cfg := rfl
@[simp] theorem applyReset_draws (s : State) : (applyReset s).draws = s.draws := rfl

@[simp] theorem loadAccumulator_acc (v : Byte) (s : State) : (loadAccumulator v s).acc = v := rfl
@[simp] theorem loadAccumulator_opr (v : Byte) (s : State) : (loadAccumulator v s).opr = s.opr := rfl
@[simp] theorem loadAccumulator_ip (v : Byte) (s : State) : (loadAccumulator v s).ip = s.ip := rfl
@[simp] theorem loadAccumulator_zf (v : Byte) (s : State) : (loadAccumulator v s).zf = s.zf := rfl
@[simp] theorem loadAccumulator_cf (v : Byte) (s : State) : (loadAccumulator v s).cf = s.cf := rfl
@[simp] theorem loadAccumulator_run (v : Byte) (s : State) : (loadAccumulator v s).run = s.run := rfl
@[simp] theorem loadAccumulator_mem (v : Byte) (s : State) : (loadAccumulator v s).mem = s.mem := rfl
@[simp] theorem loadAccumulator_trace (v : Byte) (s : State) : (loadAccumulator v s).trace = s.trace := rfl
@[simp] theorem loadAccumulator_rst (v : Byte) (s : State) : (loadAccumulator v s).rst = s.rst := rfl
@[simp] theorem loadAccumulator_cfg (v : Byte) (s : State) : (loadAccumulator v s).cfg = s.cfg := rfl
@[simp] theorem loadAccumulator_draws (v : Byte) (s : State) : (loadAccumulator v s).draws = s.draws := rfl

@[simp] theorem addAccumulator_acc (v : Byte) (s : State) : (addAccumulator v s).acc = aluResult s.acc v := rfl
@[simp] theorem addAccumulator_opr (v : Byte) (s : State) :
    (addAccumulator v s).opr = oprAfterAdd s.cfg.opregOnAdd s.opr v := rfl
@[simp] theorem addAccumulator_ip (v : Byte) (s : State) : (addAccumulator v s).ip = s.ip := rfl
@[simp] theorem addAccumulator_zf (v : Byte) (s : State) : (addAccumulator v s).zf = aluZero s.acc v := rfl
@[simp] theorem addAccumulator_cf (v : Byte) (s : State) : (addAccumulator v s).cf = aluCarry s.acc v := rfl
@[simp] theorem addAccumulator_run (v : Byte) (s : State) : (addAccumulator v s).run = s.run := rfl
@[simp] theorem addAccumulator_mem (v : Byte) (s : State) : (addAccumulator v s).mem = s.mem := rfl
@[simp] theorem addAccumulator_trace (v : Byte) (s : State) : (addAccumulator v s).trace = s.trace := rfl
@[simp] theorem addAccumulator_rst (v : Byte) (s : State) : (addAccumulator v s).rst = s.rst := rfl
@[simp] theorem addAccumulator_cfg (v : Byte) (s : State) : (addAccumulator v s).cfg = s.cfg := rfl
@[simp] theorem addAccumulator_draws (v : Byte) (s : State) : (addAccumulator v s).draws = s.draws := rfl

@[simp] theorem outputAccumulator_acc (s : State) : (outputAccumulator s).acc = s.acc := rfl
@[simp] theorem outputAccumulator_opr (s : State) : (outputAccumulator s).opr = s.opr := rfl
@[simp] theorem outputAccumulator_ip (s : State) : (outputAccumulator s).ip = s.ip := rfl
@[simp] theorem outputAccumulator_zf (s : State) : (outputAccumulator s).zf = s.zf := rfl
@[simp] theorem outputAccumulator_cf (s : State) : (outputAccumulator s).cf = s.cf := rfl
@[simp] theorem outputAccumulator_run (s : State) : (outputAccumulator s).run = s.run := rfl
@[simp] theorem outputAccumulator_mem (s : State) : (outputAccumulator s).mem = s.mem := rfl
@[simp] theorem outputAccumulator_trace (s : State) : (outputAccumulator s).trace = s.trace ++ [.out s.acc] := rfl
@[simp] theorem outputAccumulator_rst (s : State) : (outputAccumulator s).rst = s.rst := rfl
@[simp] theorem outputAccumulator_cfg (s : State) : (outputAccumulator s).cfg = s.cfg := rfl
@[simp] theorem outputAccumulator_draws (s : State) : (outputAccumulator s).draws = s.draws := rfl

@[simp] theorem haltRun_acc (s : State) : (haltRun s).acc = s.acc := rfl
@[simp] theorem haltRun_opr (s : State) : (haltRun s).opr = s.opr := rfl
@[simp] theorem haltRun_ip (s : State) : (haltRun s).ip = BitVec.ofNat 16 s.cfg.memSize := rfl
@[simp] theorem haltRun_zf (s : State) : (haltRun s).zf = s.zf := rfl
@[simp] theorem haltRun_cf (s : State) : (haltRun s).cf = s.cf := rfl
@[simp] theorem haltRun_run (s : State) : (haltRun s).run = .halted := rfl
@[simp] theorem haltRun_mem (s : State) : (haltRun s).mem = s.mem := rfl
@[simp] theorem haltRun_trace (s : State) : (haltRun s).trace = s.trace ++ [.haltMsg] := rfl
@[simp] theorem haltRun_rst (s : State) : (haltRun s).rst = s.rst := rfl
@[simp] theorem haltRun_cfg (s : State) : (haltRun s).cfg = s.cfg := rfl
@[simp] theorem haltRun_draws (s : State) : (haltRun s).draws = s.draws := rfl

end Sys2Proof.Machine
end

