-- ==== Sys2Proof/Laws/Memory.lean ====
section
/-! SUPPORT. The laws of memory: a cell reads as last written and every other as before (spec/20_memory.md R42,
R46), and every operation keeps the canonical form and stays among the cells that exist. -/

namespace Sys2Proof.Machine

theorem Memory.cellAt_setCell (m : Memory) (a b : Nat) (v : Byte) :
    Memory.cellAt (Memory.setCell m a v) b = if b = a then some v else Memory.cellAt m b := by
  induction m with
  | nil => simp [Memory.setCell, Memory.cellAt]
  | cons c rest ih =>
    obtain ⟨k, w⟩ := c
    simp only [Memory.setCell]
    split
    · rfl
    · split
      · simp only [Memory.cellAt]; grind
      · simp only [Memory.cellAt, ih]; grind

@[simp] theorem Memory.cellAt_setCell_self (m : Memory) (a : Nat) (v : Byte) :
    Memory.cellAt (Memory.setCell m a v) a = some v := by
  simp [Memory.cellAt_setCell]

theorem Memory.cellAt_setCell_other (m : Memory) {a b : Nat} (v : Byte) (h : b ≠ a) :
    Memory.cellAt (Memory.setCell m a v) b = Memory.cellAt m b := by
  simp [Memory.cellAt_setCell, h]

/-- The canonical form of a longer list: the head below the next address, the rest canonical. -/
theorem Memory.wf_cons_cons (a b : Nat) (v w : Byte) (rest : Memory) :
    Memory.wf ((a, v) :: (b, w) :: rest) = true ↔ a < b ∧ Memory.wf ((b, w) :: rest) = true := by
  simp [Memory.wf]

/-- A store keeps the canonical form, and the first address is the old first one or the stored one. -/
theorem Memory.wf_cons_setCell (k : Nat) (w : Byte) (m : Memory) (a : Nat) (v : Byte) (hk : k < a)
    (h : Memory.wf ((k, w) :: m) = true) : Memory.wf ((k, w) :: Memory.setCell m a v) = true := by
  induction m generalizing k w with
  | nil => simp [Memory.setCell, Memory.wf, hk]
  | cons c rest ih =>
    obtain ⟨l, x⟩ := c
    obtain ⟨hkl, hrest⟩ := (Memory.wf_cons_cons k l w x rest).mp h
    simp only [Memory.setCell]
    split
    · next hal => simp [Memory.wf_cons_cons, hk, hal, hrest]
    · split
      · next _ hal =>
        subst hal
        cases rest with
        | nil => simp [Memory.wf, hk]
        | cons d rest =>
          obtain ⟨e, y⟩ := d
          simp_all [Memory.wf_cons_cons]
      · next h1 h2 => exact (Memory.wf_cons_cons ..).mpr ⟨hkl, ih l x (by omega) hrest⟩

theorem Memory.wf_setCell (m : Memory) (a : Nat) (v : Byte) (h : Memory.wf m = true) :
    Memory.wf (Memory.setCell m a v) = true := by
  cases m with
  | nil => rfl
  | cons c rest =>
    obtain ⟨k, w⟩ := c
    simp only [Memory.setCell]
    split
    · next hak => exact (Memory.wf_cons_cons ..).mpr ⟨hak, h⟩
    · split
      · next _ hak =>
        subst hak
        cases rest with
        | nil => rfl
        | cons d rest => obtain ⟨e, y⟩ := d; simp_all [Memory.wf_cons_cons]
      · exact Memory.wf_cons_setCell k w rest a v (by omega) h

theorem Memory.within_setCell (n : Nat) (m : Memory) (a : Nat) (v : Byte) (ha : a < n)
    (h : Memory.within n m = true) : Memory.within n (Memory.setCell m a v) = true := by
  induction m with
  | nil => simp [Memory.setCell, Memory.within, ha]
  | cons c rest ih =>
    obtain ⟨k, w⟩ := c
    simp only [Memory.within, List.all_cons, Bool.and_eq_true, decide_eq_true_eq] at h ih
    simp only [Memory.setCell]
    split
    · simp [Memory.within, ha, h]
    · split
      · simp [Memory.within, ha, h]
      · simp [Memory.within, h.1, ih h.2]

theorem Memory.wf_placeBytes (n : Nat) (bs : List Byte) (a : Nat) (m : Memory) (h : Memory.wf m = true) :
    Memory.wf (placeBytes n bs a m) = true := by
  induction bs generalizing a m with
  | nil => exact h
  | cons b bs ih =>
    apply ih
    split
    · exact Memory.wf_setCell m a b h
    · exact h

theorem Memory.within_placeBytes (n : Nat) (bs : List Byte) (a : Nat) (m : Memory)
    (h : Memory.within n m = true) : Memory.within n (placeBytes n bs a m) = true := by
  induction bs generalizing a m with
  | nil => exact h
  | cons b bs ih =>
    apply ih
    split
    · next ha => exact Memory.within_setCell n m a b ha h
    · exact h

/-- An assembled image is in canonical form. -/
theorem Memory.wf_placeItem (bs : List Byte) (a : Nat) (m : Memory) (h : Memory.wf m = true) :
    Memory.wf (placeItem bs a m) = true := by
  induction bs generalizing a m with
  | nil => exact h
  | cons b bs ih => exact ih _ _ (Memory.wf_setCell m a b h)

/-- An address below `n` has a value in a complete image. -/
theorem Memory.cellAt_of_complete {n : Nat} {m : Memory} (h : Memory.complete n m = true) {a : Nat} (ha : a < n) :
    ∃ b, Memory.cellAt m a = some b := by
  simp only [Memory.complete, List.all_eq_true, List.mem_range] at h
  exact Option.isSome_iff_exists.mp (h a ha)

theorem Memory.complete_setCell {n : Nat} {m : Memory} (a : Nat) (v : Byte) (h : Memory.complete n m = true) :
    Memory.complete n (Memory.setCell m a v) = true := by
  simp only [Memory.complete, List.all_eq_true, List.mem_range] at h ⊢
  intro b hb
  rw [Memory.cellAt_setCell]
  split
  · rfl
  · exact h b hb

/-- The memory of the state after reset is in canonical form. -/
theorem State.reset_mem_wf : Memory.wf State.reset.mem = true := rfl

end Sys2Proof.Machine
end

