-- ==== Sys2Proof/Laws/Ops.lean ====
section
/-! SUPPORT. What each shared operation can do, said once: memory accesses, decode over a source of bytes, the
fetch, one step. Later proofs cite these and unfold none of them. -/

namespace Sys2Proof

/-! ### Decode -/

/-- The opcode map, read from the opcode (spec/30_encoding.md R64). -/
theorem opcodeOf_eq_some {b : Byte} {o : Opcode} : opcodeOf b = some o ↔ b = o.byte := by
  constructor
  · intro h
    simp only [opcodeOf] at h
    (repeat' split at h) <;> simp_all [Opcode.byte] <;> subst h <;> rfl
  · rintro rfl
    cases o <;> rfl

@[simp] theorem opcodeOf_byte (o : Opcode) : opcodeOf o.byte = some o := opcodeOf_eq_some.mpr rfl

/-- The 251 other values (R67). -/
theorem opcodeOf_eq_none {b : Byte} :
    opcodeOf b = none ↔ b ≠ 0x01 ∧ b ≠ 0x02 ∧ b ≠ 0x03 ∧ b ≠ 0xFF ∧ b ≠ 0x00 := by
  simp only [opcodeOf]
  (repeat' split) <;> simp_all

theorem addressHigh_toNat (a : Addr) : (addressHigh a).toNat = a.toNat / 256 := by
  have h := a.isLt
  simp [addressHigh, Nat.shiftRight_eq_div_pow]
  omega

theorem addressLow_toNat (a : Addr) : (addressLow a).toNat = a.toNat % 256 := by
  simp [addressLow]

/-- The address in numbers: the high byte times 256 plus the low byte (R63). -/
theorem assembleAddress_toNat (hi lo : Byte) :
    (assembleAddress hi lo).toNat = hi.toNat * 256 + lo.toNat := by
  have h := hi.isLt
  have l := lo.isLt
  have e : hi.toNat <<< 8 ||| lo.toNat = hi.toNat * 256 + lo.toNat := by
    rw [← Nat.shiftLeft_add_eq_or_of_lt l, Nat.shiftLeft_eq]
  simp only [assembleAddress, BitVec.toNat_or, BitVec.toNat_shiftLeft, BitVec.toNat_setWidth]
  rw [Nat.mod_eq_of_lt (a := hi.toNat) (by omega), Nat.mod_eq_of_lt (a := lo.toNat) (by omega),
    Nat.mod_eq_of_lt (by rw [Nat.shiftLeft_eq]; omega), e]

/-- The address operand is the two bytes of format A put together again (R63). -/
theorem assembleAddress_bytes (a : Addr) : assembleAddress (addressHigh a) (addressLow a) = a := by
  apply BitVec.eq_of_toNat_eq
  rw [assembleAddress_toNat, addressHigh_toNat, addressLow_toNat]
  omega

theorem addressHigh_assemble (hi lo : Byte) : addressHigh (assembleAddress hi lo) = hi := by
  apply BitVec.eq_of_toNat_eq
  rw [addressHigh_toNat, assembleAddress_toNat]
  omega

theorem addressLow_assemble (hi lo : Byte) : addressLow (assembleAddress hi lo) = lo := by
  apply BitVec.eq_of_toNat_eq
  rw [addressLow_toNat, assembleAddress_toNat]
  omega

/-- The encoding has as many bytes as the opcode says (R60). -/
theorem encode_length (i : Instr) : (encode i).length = i.length := by
  cases i <;> rfl

/-- An opcode byte that is none of the five ends decode with no further read (R65, R67). -/
theorem decodeWith_unrecognized {ε : Type} {read : Nat → Except ε Byte} {b : Byte} :
    decodeWith read = .ok (.unrecognized b) ↔ read 0 = .ok b ∧ opcodeOf b = none := by
  simp only [decodeWith]
  (repeat' split) <;> simp_all
  · rintro rfl; simp_all
  all_goals (rintro rfl; simp_all)

/-- The source `read` holds the bytes `bs` at its first offsets. -/
def ReadsAs {ε : Type} (read : Nat → Except ε Byte) (bs : List Byte) : Prop :=
  ∀ k b, bs[k]? = some b → read k = .ok b

@[simp] theorem readsAs_nil {ε : Type} {read : Nat → Except ε Byte} : ReadsAs read [] := by
  intro k b h
  simp at h

theorem readsAs_cons {ε : Type} {read : Nat → Except ε Byte} {b : Byte} {bs : List Byte} :
    ReadsAs read (b :: bs) ↔ read 0 = .ok b ∧ ReadsAs (fun k => read (k + 1)) bs := by
  constructor
  · exact fun h => ⟨h 0 b rfl, fun k c hc => h (k + 1) c (by simpa using hc)⟩
  · rintro ⟨h0, h⟩ k c hc
    cases k with
    | zero => simp_all
    | succ k => exact h k c (by simpa using hc)

/-- Decode finds an instruction exactly when its source holds that instruction's bytes (R65). -/
theorem decodeWith_instr {ε : Type} {read : Nat → Except ε Byte} {i : Instr} :
    decodeWith read = .ok (.instr i) ↔ ReadsAs read (encode i) := by
  constructor
  · intro h
    simp only [decodeWith] at h
    (repeat' split at h) <;> simp_all only [Except.ok.injEq, Verdict.instr.injEq, reduceCtorEq] <;> subst h <;>
      simp_all [encode, readsAs_cons, Instr.opcode, opcodeOf_eq_some, addressHigh_assemble, addressLow_assemble]
  · intro h
    cases i <;>
      simp_all [encode, readsAs_cons, Instr.opcode, decodeWith, assembleAddress_bytes]

/-- Decode fails at the first byte it cannot have: the opcode, or an operand byte of an instruction whose
earlier bytes it has read (R65, R134). -/
theorem decodeWith_error {ε : Type} {read : Nat → Except ε Byte} {e : ε} :
    decodeWith read = .error e ↔
      ∃ i k, k < Instr.length i ∧ ReadsAs read ((encode i).take k) ∧ read k = .error e := by
  constructor
  · intro h
    simp only [decodeWith] at h
    (repeat' split at h) <;> simp_all only [Except.error.injEq, reduceCtorEq] <;> subst h
    · exact ⟨.halt, 0, by decide, by simp, by assumption⟩
    · next op h0 _ _ ho _ _ h1 =>
      exact ⟨.loadImmediate 0, 1, by decide, by simp_all [encode, readsAs_cons, Instr.opcode, opcodeOf_eq_some], h1⟩
    · next op h0 _ _ ho _ _ h1 =>
      exact ⟨.addImmediate 0, 1, by decide, by simp_all [encode, readsAs_cons, Instr.opcode, opcodeOf_eq_some], h1⟩
    · next op h0 _ _ ho _ _ h1 =>
      exact ⟨.storeAccumulator 0, 1, by decide,
        by simp_all [encode, readsAs_cons, Instr.opcode, opcodeOf_eq_some], h1⟩
    · next op h0 _ _ ho _ hi h1 _ _ h2 =>
      exact ⟨.storeAccumulator (assembleAddress hi 0), 2, Nat.lt_succ_self 2,
        by simp_all [encode, readsAs_cons, Instr.opcode, opcodeOf_eq_some, addressHigh_assemble], h2⟩
  · rintro ⟨i, k, hk, hr, he⟩
    match k with
    | 0 => simp [decodeWith, he]
    | 1 => cases i <;> simp_all [Instr.length, Instr.opcode, Opcode.operandBytes, encode, readsAs_cons, decodeWith]
    | 2 => cases i <;> simp_all [Instr.length, Instr.opcode, Opcode.operandBytes, encode, readsAs_cons, decodeWith]
    | k + 3 => cases i <;> simp_all [Instr.length, Instr.opcode, Opcode.operandBytes]

end Sys2Proof

namespace Sys2Proof.Machine

/-! ### Memory accesses (spec/20_memory.md R41, R42) -/

theorem memRead_eq_ok {s : State} {a : Addr} {b : Byte} :
    memRead s a = .ok b ↔ a.toNat < s.cfg.memSize ∧ Memory.cellAt s.mem a.toNat = some b := by
  simp only [memRead]
  (repeat' split) <;> simp_all

theorem memRead_eq_outOfBounds {s : State} {a c : Addr} :
    memRead s a = .error (.outOfBounds c) ↔ c = a ∧ s.cfg.memSize ≤ a.toNat := by
  simp only [memRead]
  (repeat' split) <;> simp_all
  exact eq_comm

theorem memRead_eq_unwritten {s : State} {a c : Addr} :
    memRead s a = .error (.unwritten c) ↔
      c = a ∧ a.toNat < s.cfg.memSize ∧ Memory.cellAt s.mem a.toNat = none := by
  simp only [memRead]
  (repeat' split) <;> simp_all
  exact eq_comm

/-- A read depends on the configuration and on the one cell (R41). -/
theorem memRead_congr {s t : State} {a : Addr} (hc : t.cfg = s.cfg)
    (hm : Memory.cellAt t.mem a.toNat = Memory.cellAt s.mem a.toNat) : memRead t a = memRead s a := by
  simp only [memRead, hc, hm]

theorem memWrite_inBounds {s : State} {a : Addr} (v : Byte) (h : a.toNat < s.cfg.memSize) :
    memWrite s a v = .ok (s.setMem (Memory.setCell s.mem a.toNat v)) := by
  simp [memWrite, h]

theorem memWrite_outOfBounds {s : State} {a : Addr} (v : Byte) (h : s.cfg.memSize ≤ a.toNat) :
    memWrite s a v = .error (.outOfBounds a) := by
  simp [memWrite, Nat.not_lt.mpr h]

/-! ### Fetch -/

theorem holdsBytes_iff {s : State} {bs : List Byte} {a : Nat} :
    s.holdsBytes bs a = true ↔
      ∀ k b, bs[k]? = some b → a + k < s.cfg.memSize ∧ Memory.cellAt s.mem (a + k) = some b := by
  induction bs generalizing a with
  | nil => simp [State.holdsBytes]
  | cons c bs ih =>
    simp only [State.holdsBytes, Bool.and_eq_true, decide_eq_true_eq, ih]
    constructor
    · rintro ⟨h0, h⟩ k b hb
      cases k with
      | zero => simp_all
      | succ k => have := h k b (by simpa using hb); rw [show a + (k + 1) = a + 1 + k by omega]; exact this
    · intro h
      refine ⟨h 0 c rfl, fun k b hb => ?_⟩
      have := h (k + 1) b (by simpa using hb)
      rwa [show a + 1 + k = a + (k + 1) by omega]

/-- In a configuration in range, an offset from `IP` that stays below `MEM_SIZE` does not wrap (R24). -/
theorem ip_offset_toNat {s : State} (hc : s.cfg.wellFormed = true) {k : Nat} (hk : k ≤ 3)
    (h : s.ip.toNat + k ≤ s.cfg.memSize) : (s.ip + BitVec.ofNat 16 k).toNat = s.ip.toNat + k := by
  simp only [Config.wellFormed, Bool.and_eq_true, decide_eq_true_eq] at hc
  rw [BitVec.toNat_add, BitVec.toNat_ofNat]
  omega

/-- The bytes the fetch unit reads from `IP` on are those memory holds there: at most three, so the address
cannot wrap before it leaves memory. -/
theorem readsAs_memory {s : State} (hc : s.cfg.wellFormed = true) {bs : List Byte} (hl : bs.length ≤ 3) :
    ReadsAs (fun k => memRead s (s.ip + BitVec.ofNat 16 k)) bs ↔ s.holdsBytes bs s.ip.toNat = true := by
  rw [holdsBytes_iff]
  constructor
  · intro h k
    induction k using Nat.strong_induction_on with
    | _ k ih =>
      intro b hb
      have hk : k < bs.length := (List.getElem?_eq_some_iff.mp hb).1
      have below : s.ip.toNat + k ≤ s.cfg.memSize := by
        cases k with
        | zero => have := (memRead_eq_ok.mp (h 0 b hb)).1; simp at this; omega
        | succ j => have := (ih j (by omega) bs[j] (List.getElem?_eq_getElem (by omega))).1; omega
      have := memRead_eq_ok.mp (h k b hb)
      rwa [ip_offset_toNat hc (by omega) below] at this
  · intro h k b hb
    have hk : k < bs.length := (List.getElem?_eq_some_iff.mp hb).1
    obtain ⟨h1, h2⟩ := h k b hb
    have e := ip_offset_toNat hc (k := k) (by omega) (by omega)
    exact memRead_eq_ok.mpr (by rw [e]; exact ⟨h1, h2⟩)

theorem length_le_three (i : Instr) : i.length ≤ 3 := by
  cases i <;> simp [Instr.length, Instr.opcode, Opcode.operandBytes]

theorem length_pos (i : Instr) : 0 < i.length := by
  simp [Instr.length]

/-- The fetch finds instruction `i` exactly when memory holds its bytes at `IP` (R65, R66). -/
theorem fetchDecode_instr {s : State} (hc : s.cfg.wellFormed = true) {i : Instr} :
    fetchDecode s = .ok (.instr i) ↔ s.holdsBytes (encode i) s.ip.toNat = true := by
  rw [fetchDecode, decodeWith_instr, readsAs_memory hc (by rw [encode_length]; exact length_le_three i)]

/-- The fetch finds the opcode `b` unrecognized exactly when the cell at `IP` holds such a byte (R67). -/
theorem fetchDecode_unrecognized {s : State} {b : Byte} :
    fetchDecode s = .ok (.unrecognized b) ↔
      s.ip.toNat < s.cfg.memSize ∧ Memory.cellAt s.mem s.ip.toNat = some b ∧ opcodeOf b = none := by
  rw [fetchDecode, decodeWith_unrecognized, memRead_eq_ok]
  simp [and_assoc]

/-- A held instruction lies inside memory (R24). -/
theorem holdsBytes_inside {s : State} {bs : List Byte} {a : Nat} (hb : bs ≠ [])
    (h : s.holdsBytes bs a = true) : a + bs.length ≤ s.cfg.memSize := by
  have hl : 0 < bs.length := List.length_pos_iff.mpr hb
  have := (holdsBytes_iff.mp h (bs.length - 1) bs[bs.length - 1] (List.getElem?_eq_getElem (by omega))).1
  omega

/-- The fetch raises the out-of-bounds condition exactly at the first byte past the end of memory (R132). -/
theorem fetchDecode_outOfBounds {s : State} (hc : s.cfg.wellFormed = true) {a : Addr} :
    fetchDecode s = .error (.outOfBounds a) ↔
      ∃ i k, k < Instr.length i ∧ s.holdsBytes ((encode i).take k) s.ip.toNat = true ∧
        s.cfg.memSize ≤ s.ip.toNat + k ∧ a = s.ip + BitVec.ofNat 16 k := by
  rw [fetchDecode, decodeWith_error]
  refine exists_congr fun i => exists_congr fun k => and_congr_right fun hk => ?_
  have h3 := length_le_three i
  rw [readsAs_memory hc (by rw [List.length_take, encode_length]; omega), memRead_eq_outOfBounds]
  refine and_congr_right fun hh => ?_
  have inside : k = 0 ∨ s.ip.toNat + k ≤ s.cfg.memSize := by
    cases k with
    | zero => exact .inl rfl
    | succ k =>
      have := holdsBytes_inside (by simp [encode]) hh
      rw [List.length_take, encode_length] at this
      omega
  have e : (s.ip + BitVec.ofNat 16 k).toNat = s.ip.toNat + k := by
    rcases inside with rfl | h
    · simp
    · exact ip_offset_toNat hc (by omega) h
  rw [e]
  exact and_comm

/-- The fetch stops the model exactly at a cell in range that nothing has given a value (log 6). -/
theorem fetchDecode_unwritten {s : State} {a : Addr} (h : fetchDecode s = .error (.unwritten a)) :
    a.toNat < s.cfg.memSize ∧ Memory.cellAt s.mem a.toNat = none := by
  rw [fetchDecode, decodeWith_error] at h
  obtain ⟨i, k, -, -, h⟩ := h
  obtain ⟨rfl, hlt, hnone⟩ := memRead_eq_unwritten.mp h
  exact ⟨hlt, hnone⟩

/-! ### The meanings and the step -/

/-- STA in bounds (R90). -/
theorem exec_storeAccumulator_inBounds {a : Addr} {s : State} (h : a.toNat < s.cfg.memSize) :
    exec (.storeAccumulator a) s = .next (s.setMem (Memory.setCell s.mem a.toNat s.acc)) := by
  simp [exec, execStoreAccumulator, effectiveAddress, accumulator, memWrite_inBounds _ h, orRaise]

/-- STA out of bounds (R90, R132). -/
theorem exec_storeAccumulator_outOfBounds {a : Addr} {s : State} (h : s.cfg.memSize ≤ a.toNat) :
    exec (.storeAccumulator a) s = .next (raiseOutOfBounds a s) := by
  simp [exec, execStoreAccumulator, effectiveAddress, accumulator, memWrite_outOfBounds _ h, orRaise, raise]

/-- Every meaning answers a next state, and this is everything it can be (R81, R82, R90, R100, R101). -/
theorem exec_cases (i : Instr) (s : State) :
    ∃ t, exec i s = .next t ∧
      ((∃ v, i = .loadImmediate v ∧ t = loadAccumulator v s) ∨
        (∃ v, i = .addImmediate v ∧ t = addAccumulator v s) ∨
        (∃ a, i = .storeAccumulator a ∧ a.toNat < s.cfg.memSize ∧
          t = s.setMem (Memory.setCell s.mem a.toNat s.acc)) ∨
        (∃ a, i = .storeAccumulator a ∧ s.cfg.memSize ≤ a.toNat ∧ t = raiseOutOfBounds a s) ∨
        (i = .output ∧ t = outputAccumulator s) ∨
        (i = .halt ∧ t = haltRun s)) := by
  cases i with
  | loadImmediate v => exact ⟨_, rfl, .inl ⟨v, rfl, rfl⟩⟩
  | addImmediate v => exact ⟨_, rfl, .inr (.inl ⟨v, rfl, rfl⟩)⟩
  | storeAccumulator a =>
    rcases Nat.lt_or_ge a.toNat s.cfg.memSize with h | h
    · exact ⟨_, exec_storeAccumulator_inBounds h, .inr (.inr (.inl ⟨a, rfl, h, rfl⟩))⟩
    · exact ⟨_, exec_storeAccumulator_outOfBounds h, .inr (.inr (.inr (.inl ⟨a, rfl, h, rfl⟩)))⟩
  | output => exact ⟨_, rfl, .inr (.inr (.inr (.inr (.inl ⟨rfl, rfl⟩))))⟩
  | halt => exact ⟨_, rfl, .inr (.inr (.inr (.inr (.inr ⟨rfl, rfl⟩))))⟩

/-- Everything a step can do when it answers a next state (R110, R112): take the reset values; or, from a
Running block, execute the instruction memory holds at `IP`, stop at an unrecognized opcode, or take the fault
of a fetch. -/
theorem step_cases {s t : State} (h : step s = .next t) :
    s.cfg.wellFormed = true ∧
      ((s.rst = true ∧ t = applyReset s) ∨
        (s.Ready ∧
          ((∃ i, fetchDecode s = .ok (.instr i) ∧ exec i (s.advance i.length) = .next t) ∨
            (∃ b, fetchDecode s = .ok (.unrecognized b) ∧ t = stopUnrecognized b s) ∨
            ∃ a, fetchDecode s = .error (.outOfBounds a) ∧ t = raiseOutOfBounds a s))) := by
  simp only [step, controlStep] at h
  split at h
  · next hc =>
    refine ⟨hc, ?_⟩
    split at h
    · next hr => exact .inl ⟨hr, (Host.Outcome.next.inj h).symm⟩
    · next hr =>
      cases hrun : s.run with
      | running =>
        refine .inr ⟨⟨hc, by simpa using hr, hrun⟩, ?_⟩
        simp only [hrun, runInstruction] at h
        split at h
        · next i hi => exact .inl ⟨i, hi, h⟩
        · next b hb => exact .inr (.inl ⟨b, hb, (Host.Outcome.next.inj h).symm⟩)
        · next e he =>
          cases e with
          | outOfBounds a => exact .inr (.inr ⟨a, he, (Host.Outcome.next.inj h).symm⟩)
          | unwritten a => cases h
      | halted => simp [hrun] at h
      | unrecognized b => simp [hrun] at h
      | faulted a n => simp [hrun] at h
  · cases h

/-- A ready block runs an instruction (R110). -/
theorem step_ready {s : State} (h : s.Ready) : step s = runInstruction s := by
  obtain ⟨hc, hr, hrun⟩ := h
  simp [step, controlStep, hc, hr, hrun]

/-- A block held in reset takes the reset values (R151). -/
theorem step_reset {s : State} (hc : s.cfg.wellFormed = true) (hr : s.rst = true) :
    step s = .next (applyReset s) := by
  simp [step, controlStep, hc, hr]

end Sys2Proof.Machine
end

