-- ==== Sys2Proof/Laws/PerInstr.lean ====
section
/-! SUPPORT. What holds of every instruction as syntax, one lemma per constructor (LAWS.json names the family). -/

namespace Sys2Proof.Laws.EncodedLength

/-- The instruction is well-formed, its encoding begins with its opcode's byte and has its length, 1 to 3 bytes
(spec/30_encoding.md R60, R61, R68). -/
def Statement (i : Instr) : Prop :=
  i.wellFormed = true ∧ (encode i).head? = some i.opcode.byte ∧ (encode i).length = i.length ∧
    1 ≤ i.length ∧ i.length ≤ 3

/-- All but the first two parts do not depend on the constructor. -/
theorem of_head {i : Instr} (hw : i.wellFormed = true) (hh : (encode i).head? = some i.opcode.byte) :
    Statement i :=
  ⟨hw, hh, encode_length i, Machine.length_pos i, Machine.length_le_three i⟩

theorem loadImmediate (value : Byte) : Statement (.loadImmediate value) := of_head rfl rfl

theorem addImmediate (value : Byte) : Statement (.addImmediate value) := of_head rfl rfl

theorem storeAccumulator (address : Addr) : Statement (.storeAccumulator address) := of_head rfl rfl

theorem output : Statement .output := of_head rfl rfl

theorem halt : Statement .halt := of_head rfl rfl

end Sys2Proof.Laws.EncodedLength
end

