-- ==== Sys2Proof/Laws/Sequencer.lean ====
section
/-! SUPPORT. What a clock cycle and a run do in each kind of state, said once (spec/43_control_sequencer.md R111,
R116, R119; spec/70_reset_and_hazards.md R151). -/

namespace Sys2Proof.Machine

/-- A cycle of a ready block is one of the four rows of R119. -/
theorem tick_ready {c : CycleState} (h : c.arch.Ready) : tick c = activeCycle c := by
  obtain ⟨hc, hr, hrun⟩ := h
  simp [tick, hc, hr, hrun, Run.stopped]

/-- A cycle with `rst = 1` leaves the reset values at FETCH (R151). -/
theorem tick_reset {c : CycleState} (hc : c.arch.cfg.wellFormed = true) (hr : c.arch.rst = true) :
    tick c = .next ⟨applyReset c.arch, .fetch⟩ := by
  simp [tick, hc, hr]

/-- A cycle of a stopped block changes nothing (R112). -/
theorem tick_stopped {c : CycleState} (hc : c.arch.cfg.wellFormed = true) (hr : c.arch.rst = false)
    (hs : c.arch.run.stopped = true) : tick c = .next c := by
  simp [tick, hc, hr, hs]

/-- Cycles one after another. -/
theorem ticks_add {m n : Nat} {c d : CycleState} (h : ticks m c = .next d) : ticks (m + n) c = ticks n d := by
  induction m generalizing c with
  | zero => cases h; simp
  | succ m ih =>
    rw [show m + 1 + n = (m + n) + 1 by omega]
    simp only [ticks] at h ⊢
    split at h <;> simp_all

/-- A run that has stopped is where it is (R111). -/
theorem runLoop_stopped {n : Nat} {s : State} (h : s.run.stopped = true) : runLoop n s = .next s := by
  cases n <;> simp [runLoop, h]

theorem Run.stopped_iff {r : Run} : r.stopped = true ↔ r ≠ .running := by
  cases r <;> simp [Run.stopped]

/-- Advancing `IP` twice is advancing it once by the sum. -/
theorem advance_advance (m n : Nat) (s : State) : (s.advance m).advance n = s.advance (m + n) := by
  simp [State.advance, State.setIp, BitVec.add_assoc, BitVec.ofNat_add]

/-- A read does not depend on `IP`. -/
@[simp] theorem memRead_advance (s : State) (n : Nat) (a : Addr) : memRead (s.advance n) a = memRead s a :=
  memRead_congr rfl rfl

end Sys2Proof.Machine
end

