-- ==== Sys2Proof/Tests/Slice0.lean ====
section
/-! SUPPORT. The model's own tests. Expected values come from spec/95_test_vectors.md, from the worked examples of
the rules, or from the encoding tables, as each comment says. The `witness_` theorems show that the hypotheses of
an obligation can be met, clause by clause, at boundary values. -/

namespace Sys2Proof.Tests
open Sys2Proof Sys2Proof.Machine

/-! ### Helpers -/

/-- The bytes `bs` in the cells from `a` on. -/
def cells (a : Nat) (bs : List Byte) : Memory := placeBytes 65536 bs a []

/-- A fresh block of `n` cells with the bytes `bs` at `a` and `IP = a`. -/
def blockAt (n : Nat) (a : Addr) (bs : List Byte) : State :=
  { State.construct ⟨n, .unchanged⟩ (cells a.toNat bs) with ip := a }

/-- A fresh block of 256 cells with the bytes `bs` at 0. -/
def block (bs : List Byte) : State := blockAt 256 0 bs

/-- A part of the state a result answers. -/
def after {α : Type} (f : State → α) : Result → Option α
  | .next s => some (f s)
  | .fault _ => none
  | .refused _ => none

/-! ### Well-formedness: each check refuses an ill-formed term -/

theorem test_size_zero_refused : Config.wellFormed ⟨0, .unchanged⟩ = false := by decide

theorem test_size_65536_refused : Config.wellFormed ⟨65536, .unchanged⟩ = false := by decide

theorem test_sizes_at_the_bounds_accepted :
    Config.wellFormed ⟨1, .unchanged⟩ = true ∧ Config.wellFormed ⟨65535, .loadImmediate⟩ = true := by decide

/-- R71's bounds. (No term of Instr is ill-formed, R68: its operand types hold exactly the encodable values.) -/
theorem test_assembly_operands_refused :
    (AsmItem.lda 256).wellFormed = false ∧ (AsmItem.add 256).wellFormed = false ∧
      (AsmItem.sta 65536).wellFormed = false ∧ (AsmItem.byte 256).wellFormed = false := by decide

/-- A memory out of order, with a repeat, or with a cell that does not exist is caught. -/
theorem test_memory_checks :
    Memory.wf [(2, 0), (1, 0)] = false ∧ Memory.wf [(1, 0), (1, 5)] = false ∧
      Memory.within 4 [(4, 0)] = false ∧ Memory.wf [(0, 1), (3, 0)] = true := by decide

/-! ### Decoding, from words written out bit by bit (R61, R64) -/

theorem test_decode_lda : decode [0b00000001, 0b11111010] = .ok (.loadImmediate 250, []) := by rfl

theorem test_decode_add : decode [0b00000010, 0b00001010, 0b11111111] = .ok (.addImmediate 10, [0xFF]) := by rfl

/-- Source S4: `03 12 34`, high byte first. -/
theorem test_decode_sta :
    decode [0b00000011, 0b00010010, 0b00110100] = .ok (.storeAccumulator 0x1234, []) := by rfl

theorem test_decode_out : decode [0b11111111] = .ok (.output, []) := by rfl

theorem test_decode_hlt : decode [0b00000000] = .ok (.halt, []) := by rfl

/-- Section 2.5: 04, 10, 7F, 80, FE. -/
theorem test_decode_unrecognized :
    [0x04, 0x10, 0x7F, 0x80, 0xFE].all (fun b => decide (opcodeOf b = none)) = true := by decide

theorem test_decode_truncated : decode [0x03, 0x12] = .error (.truncated 2) := by rfl

/-- A table word: the second byte is bits 15:8, the third bits 23:16; above `nbits` all is 0. -/
theorem test_table_words :
    decodeTableWord 24 0x341203 = some (.storeAccumulator 0x1234) ∧ decodeTableWord 8 0xFF03 = some (.storeAccumulator 0)
      ∧ decodeTableWord 16 0xFA01 = some (.loadImmediate 250) := by decide

/-! ### LDA (section 2.2) -/

theorem test_lda_leaves_flags :
    after (fun s => (s.acc, s.zf, s.cf, s.ip))
      (step { block [0x01, 0xFA] with acc := 0x12, zf := true, cf := true }) = some (0xFA, true, true, 2) := by
  decide

theorem test_lda_zero_leaves_zf_false :
    after (fun s => (s.acc, s.zf, s.cf)) (step (block [0x01, 0x00])) = some (0, false, false) := by decide

/-! ### ADD (section 2.1) -/

/-- One row of the table: `ACC`, `CF`, `ZF` after ADD `v` at `ACC = a`. -/
def addRow (a v : Byte) : Option (Byte × Bool × Bool) :=
  after (fun s => (s.acc, s.cf, s.zf)) (exec (.addImmediate v) { block [] with acc := a, zf := true, cf := true })

theorem test_add_rows :
    addRow 0 0 = some (0, false, true) ∧ addRow 5 0 = some (5, false, false) ∧
      addRow 1 254 = some (255, false, false) ∧ addRow 1 255 = some (0, true, true) ∧
      addRow 127 1 = some (128, false, false) ∧ addRow 128 128 = some (0, true, true) ∧
      addRow 250 10 = some (4, true, false) ∧ addRow 255 255 = some (254, true, false) := by decide

/-- `0|v`: OPR under the two values of OPREG_ON_ADD. -/
theorem test_add_opr :
    after State.opr (exec (.addImmediate 3) (State.construct ⟨256, .unchanged⟩ [])) = some 0 ∧
      after State.opr (exec (.addImmediate 3) (State.construct ⟨256, .loadImmediate⟩ [])) = some 3 := by decide

/-! ### STA (section 2.3) -/

theorem test_sta_in_bounds :
    after (fun s => (Memory.cellAt s.mem 0x80, s.ip, s.run)) (step { block [0x03, 0x00, 0x80] with acc := 0x2A })
      = some (some 0x2A, 3, .running) := by decide

/-- At the ends: 0x00FF of 256 is a cell, 0x0100 is not; 0xFFFE of 65535 is a cell, 0xFFFF is not. -/
theorem test_sta_bounds :
    after State.run (exec (.storeAccumulator 0x00FF) (block [])) = some .running ∧
      after State.run (exec (.storeAccumulator 0x0100) (block [])) = some (.faulted 0x0100 256) ∧
      after State.run (exec (.storeAccumulator 0xFFFE) (blockAt 65535 0 [])) = some .running ∧
      after State.run (exec (.storeAccumulator 0xFFFF) (blockAt 65535 0 [])) = some (.faulted 0xFFFF 65535) := by
  decide

/-! ### OUT and HLT (section 2.4) -/

theorem test_out :
    after (fun s => (s.trace, s.ip)) (step { blockAt 256 0x10 [0xFF] with acc := 255 })
      = some ([.out 255], 0x11) := by decide

theorem test_hlt :
    after (fun s => (s.ip, s.run, s.trace)) (step (blockAt 256 5 [0x00])) = some (256, .halted, [.haltMsg]) ∧
      after State.ip (step (blockAt 1 0 [0x00])) = some 1 ∧
      after State.ip (step (blockAt 65535 0 [0x00])) = some 0xFFFF := by decide

/-! ### Stops (section 2.5) -/

theorem test_unrecognized_in_the_last_cell :
    after (fun s => (s.run, s.ip, s.trace)) (step (blockAt 256 255 [0x42]))
      = some (.unrecognized 0x42, 256, [.unrecMsg 0x42]) := by decide

theorem test_operand_fetch_faults :
    after (fun s => (s.run, s.trace, s.acc)) (step (blockAt 256 255 [0x01])) = some (.faulted 256 256, [], 0) ∧
      after State.run (step (blockAt 256 254 [0x03, 0x00])) = some (.faulted 256 256) ∧
      after State.run (step (blockAt 256 255 [0x03])) = some (.faulted 256 256) ∧
      after State.run (step (blockAt 4 4 [])) = some (.faulted 4 4) := by decide

theorem test_stopped_takes_no_step :
    step { block [0xFF] with run := .halted } = .refused .stopped := by rfl

/-- The model's own: a cell in range without a value (log 6). -/
theorem test_unwritten_cell : step (block []) = .fault (.unwrittenCell 0) := by rfl

/-! ### Reset (section 2.6) and boot -/

theorem test_reset :
    after (fun s => ((s.acc, s.opr, s.ip, s.zf, s.cf), s.run, Memory.cellAt s.mem 0x80))
      (step { blockAt 256 0x80 [0x04] with acc := 4, opr := 10, ip := 256, cf := true, run := .halted, rst := true })
      = some ((0, 0, 0, false, false), .running, some 4) := by decide

theorem test_withFetchWord_runs_first :
    after (fun s => (s.acc, s.ip)) (step (State.reset.withFetchWord 16 0x0A02)) = some (10, 2) ∧
      after (fun s => (s.run, s.trace)) (step (State.reset.withFetchWord 8 0x00)) = some (.halted, [.haltMsg]) := by
  decide

/-- P1: the first two lines. -/
theorem test_assembly_text :
    (assembleText [['L', 'D', 'A', ' ', '5'], ['0', 'x', '0', '0', '0', '2', ':', 'A', 'D', 'D', ' ', '0', 'x', '0', 'A', ';', 'c']]).toOption
      = some [(0, 1), (1, 5), (2, 2), (3, 10)] := by decide

theorem test_assembly_text_refused :
    (assembleText [['L', 'D', 'A', ' ', '2', '5', '6']]).toOption = none ∧
      (assembleText [['J', 'M', 'P', ' ', '0']]).toOption = none := by decide

/-- R102: "Program halted.", and "Output: 8" of section 2.4. -/
theorem test_console : renderTrace [.out 8, .haltMsg] = ["Output: 8", "Program halted."] := by rfl

/-! ### The clocked realisation: STA takes 4 cycles and writes in the last (R119) -/

theorem test_sta_cycles :
    (match ticks 3 ⟨{ block [0x03, 0x00, 0x80] with acc := 8 }, .fetch⟩ with
      | .next c => decide (c.phase = .store 0x00 0x80 ∧ c.ports.memWe = true ∧ c.ports.memAddr = 0x80 ∧
          c.ports.memWdata = 8 ∧ Memory.cellAt c.arch.mem 0x80 = none)
      | _ => false) = true := by decide

/-! ### Witnesses of the obligations' hypotheses -/

theorem witness_LdaLoadsItsImmediate :
    (blockAt 256 254 [0x01, 7]).Ready ∧ (blockAt 256 254 [0x01, 7]).holdsBytes [0x01, 7] 254 = true ∧
      (blockAt 4 3 [0x01]).Ready ∧ (blockAt 4 3 [0x01]).holdsBytes ((encode (.loadImmediate 7)).take 1) 3 = true := by
  decide

theorem witness_AddAddsItsImmediate :
    (block [0x02, 1]).Ready ∧ (block [0x02, 1]).holdsBytes [0x02, 1] 0 = true ∧
      (block [0x02, 1]).cfg.opregOnAdd = .unchanged ∧
      (State.construct ⟨256, .loadImmediate⟩ []).cfg.opregOnAdd = .loadImmediate ∧
      (blockAt 4 4 []).Ready ∧ (blockAt 4 4 []).cfg.memSize ≤ (blockAt 4 4 []).ip.toNat + 0 := by decide

theorem witness_StaStoresOrFaults_inBounds :
    (effectiveAddress 255).toNat < (block [0x03, 0, 255]).cfg.memSize ∧ (block [0x03, 0, 255]).Ready ∧
      (block [0x03, 0, 255]).holdsBytes [0x03, addressHigh 255, addressLow 255] 0 = true := by decide

theorem witness_StaStoresOrFaults_outOfBounds :
    (block [0x03, 1, 0]).cfg.memSize ≤ (0x0100 : Addr).toNat ∧ (block [0x03, 1, 0]).Ready ∧
      (block [0x03, 1, 0]).holdsBytes [0x03, addressHigh 0x0100, addressLow 0x0100] 0 = true ∧
      (blockAt 4 2 [0x03, 1]).Ready ∧
      (blockAt 4 2 [0x03, 1]).holdsBytes ((encode (.storeAccumulator 0x0100)).take 2) 2 = true := by decide

theorem witness_OutEmitsTheAccumulator :
    (blockAt 1 0 [0xFF]).Ready ∧ (blockAt 1 0 [0xFF]).holdsBytes [0xFF] 0 = true ∧
      (blockAt 1 1 []).cfg.memSize ≤ (blockAt 1 1 []).ip.toNat := by decide

theorem witness_HltStopsTheRun :
    (blockAt 65535 65534 [0x00]).Ready ∧ (blockAt 65535 65534 [0x00]).holdsBytes [0x00] 65534 = true := by decide

theorem witness_EveryInstructionFrame :
    (∃ t, exec (.storeAccumulator 5) (block []) = .next t) ∧ (6 : Addr) ≠ effectiveAddress 5 ∧
      (∃ t, exec (.addImmediate 5) (block []) = .next t) ∧ (∃ t, exec (.loadImmediate 5) (block []) = .next t) ∧
      (∃ t, exec .output (block []) = .next t) ∧ ∃ t, exec .halt (block []) = .next t :=
  ⟨⟨_, rfl⟩, by decide, ⟨_, rfl⟩, ⟨_, rfl⟩, ⟨_, rfl⟩, ⟨_, rfl⟩⟩

theorem witness_FlagsDescribeTheLastAdd :
    (∃ t, step (block [0xFF]) = .next t) ∧ (block [0xFF]).rst = false ∧
      fetchDecode (block [0xFF]) = .ok (.instr .output) :=
  ⟨⟨_, rfl⟩, rfl, rfl⟩

theorem witness_DecodeOfEncode : (Instr.storeAccumulator 0xFFFF).wellFormed = true := rfl

theorem witness_EncodeOfDecode : decode [0x03, 0xFF, 0xFE, 0x07] = .ok (.storeAccumulator 0xFFFE, [0x07]) := by rfl

theorem witness_OpcodeMapIsComplete :
    (0x04 : Byte) ∉ [0x00, 0x01, 0x02, 0x03, 0xFF] ∧ (0xFE : Byte) ∉ [0x00, 0x01, 0x02, 0x03, 0xFF] := by decide

theorem witness_LengthIsKnownFromTheOpcode :
    2 < (Instr.storeAccumulator 0).length ∧
      (encode (.addImmediate 1)).head? = (encode (.addImmediate 2)).head? ∧
      (block [0x02, 1]).Ready ∧ (block [0x02, 1]).holdsBytes (encode (.addImmediate 1)) 0 = true ∧
      after State.run (step (block [0x02, 1])) = some .running := by decide

theorem witness_StepRunsTheDecodedInstruction :
    (blockAt 3 0 [0x03, 0, 2]).Ready ∧ (Instr.storeAccumulator 2).wellFormed = true ∧
      (blockAt 3 0 [0x03, 0, 2]).holdsBytes (encode (.storeAccumulator 2)) 0 = true := by decide

theorem witness_UnrecognizedOpcodeStops :
    (blockAt 256 255 [0xFE]).Ready ∧ (blockAt 256 255 [0xFE]).ip.toNat < (blockAt 256 255 [0xFE]).cfg.memSize ∧
      Memory.cellAt (blockAt 256 255 [0xFE]).mem 255 = some 0xFE ∧
      (0xFE : Byte) ∉ [0x00, 0x01, 0x02, 0x03, 0xFF] := by decide

theorem witness_OutOfBoundsHasTheseCausesOnly :
    after State.run (step (blockAt 4 4 [])) = some (.faulted 4 4) ∧
      after State.run (step (blockAt 4 3 [0x02])) = some (.faulted 4 4) ∧
      after State.run (step (blockAt 4 0 [0x03, 0, 4])) = some (.faulted 4 4) ∧
      (blockAt 4 0 [0x03, 0, 4]).Ready ∧
      (blockAt 4 0 [0x03, 0, 4]).holdsBytes (encode (.storeAccumulator 4)) 0 = true := by decide

theorem witness_StopsArePrecise :
    after State.run (step (block [0x00])) = some .halted ∧
      after State.run (step (block [0x07])) = some (.unrecognized 7) ∧
      after State.run (step (blockAt 4 4 [])) = some (.faulted 4 4) ∧ (block [0x00]).rst = false := by decide

theorem witness_RunHasTheseTransitions :
    (block []).cfg.wellFormed = true ∧ (assertReset (block [])).rst = true ∧
      ({ block [] with run := .unrecognized 7 } : State).cfg.wellFormed = true ∧
      ({ block [] with run := .unrecognized 7 } : State).rst = false ∧
      ({ block [] with run := .unrecognized 7 } : State).run ≠ .running ∧ (block [0xFF]).Ready ∧
      fetchDecode (block [0xFF]) = .ok (.instr .output) ∧ fetchDecode (block [0x00]) = .ok (.instr .halt) ∧
      fetchDecode (block [0x07]) = .ok (.unrecognized 7) ∧
      fetchDecode (blockAt 4 4 []) = .error (.outOfBounds 4) ∧
      fetchDecode (block [0x03, 1, 0]) = .ok (.instr (.storeAccumulator 0x0100)) ∧
      (block [0x03, 1, 0]).cfg.memSize ≤ (0x0100 : Addr).toNat :=
  ⟨rfl, rfl, rfl, rfl, by decide, by decide, rfl, rfl, rfl, rfl, rfl, by decide⟩

theorem witness_StoppedIsFinalUntilReset :
    ({ block [] with run := .halted } : State).cfg.wellFormed = true ∧
      ({ block [] with run := .halted } : State).rst = false ∧
      ({ block [] with run := .halted } : State).run ≠ .running := by decide

theorem witness_IpAdvanceNeverWraps :
    (blockAt 65535 65532 [0x03, 0, 0]).Ready ∧
      (blockAt 65535 65532 [0x03, 0, 0]).holdsBytes (encode (.storeAccumulator 0)) 65532 = true := by decide

theorem witness_NextFetchSeesTheStore :
    ({ block [0x03, 0, 3] with acc := 7 } : State).Ready ∧
      ({ block [0x03, 0, 3] with acc := 7 } : State).holdsBytes (encode (.storeAccumulator 3)) 0 = true ∧
      (3 : Addr).toNat = 0 + 3 ∧ (3 : Addr).toNat < 256 ∧ opcodeOf 7 = none := by decide

theorem witness_EveryStepKeepsTheInvariant :
    (blockAt 4 0 [0x03, 0, 3]).Inv ∧ ∃ t, step (blockAt 4 0 [0x03, 0, 3]) = .next t :=
  ⟨by decide, _, rfl⟩

theorem witness_ConstructionMeetsTheInvariant :
    Config.wellFormed ⟨1, .loadImmediate⟩ = true ∧ Memory.wf (cells 0 [9]) = true ∧
      Memory.within 1 (cells 0 [9]) = true := by decide

/-- P8: four OUTs fill a memory of four cells, and the run takes its bound of five steps. -/
theorem witness_WholeImageNeverStopsTheModel :
    (blockAt 4 0 [0xFF, 0xFF, 0xFF, 0xFF]).Ready ∧
      Memory.complete 4 (blockAt 4 0 [0xFF, 0xFF, 0xFF, 0xFF]).mem = true := by decide

theorem witness_EveryRunStops :
    (blockAt 1 0 [0xFF]).Ready ∧ Memory.complete 1 (blockAt 1 0 [0xFF]).mem = true ∧
      after State.run (runLoop 2 (blockAt 1 0 [0xFF])) = some (.faulted 1 1) := by decide

theorem witness_TraceOfARun :
    (blockAt 2 0 [0xFF, 0x00]).run = .running ∧ (blockAt 2 0 [0xFF, 0x00]).rst = false ∧
      ∃ t, runLoop 2 (blockAt 2 0 [0xFF, 0x00]) = .next t :=
  ⟨rfl, rfl, _, rfl⟩

theorem witness_OprAndFlagsAreNeverRead :
    ({ block [] with opr := 1, zf := true } : State).hideUnread =
      ({ State.construct ⟨256, .loadImmediate⟩ [] with cf := true } : State).hideUnread := by decide

theorem witness_TraceIsNeverRead : ∃ t, step (block [0xFF]) = .next t := ⟨_, rfl⟩

theorem witness_OnlyTheFaultIpIsOpen : ∃ t, step (blockAt 4 4 []) = .next t := ⟨_, rfl⟩

theorem witness_ResetRestoresTheInitialState :
    (assertReset { block [] with run := .faulted 0x0100 256 }).cfg.wellFormed = true ∧
      (assertReset { block [] with run := .faulted 0x0100 256 }).rst = true := by decide

theorem witness_MemorySizeIsChecked :
    step (blockAt 0 0 []) = .refused .memorySizeOutOfRange ∧
      step (blockAt 65536 0 [0xFF]) = .refused .memorySizeOutOfRange ∧
      after State.run (step (blockAt 65535 0 [0xFF])) = some .running :=
  ⟨rfl, rfl, by decide⟩

theorem witness_BootPlacesTheProgram :
    (blockAt 2 0 []).cfg.wellFormed = true ∧ [(0xFF : Byte), 0x00].length ≤ (blockAt 2 0 []).cfg.memSize := by decide

theorem witness_HostWaitsForTheStop :
    (255 : Addr).toNat < (blockAt 256 255 [3]).cfg.memSize ∧ (blockAt 256 255 [3]).rst = false ∧
      (blockAt 256 255 [3]).run = .running ∧ ({ blockAt 256 255 [3] with run := .halted } : State).run ≠ .running ∧
      Memory.cellAt (blockAt 256 255 [3]).mem 255 = some 3 := by decide

theorem witness_StopReasonCodes :
    ({ block [] with run := .unrecognized 7 } : State).run = .unrecognized 7 ∧
      ({ block [] with run := .faulted 256 256 } : State).run = .faulted 256 256 := by decide

theorem witness_AssemblyLinesEncode :
    (AsmItem.lda 255).wellFormed = true ∧ (AsmItem.add 255).wellFormed = true ∧
      (AsmItem.sta 65535).wellFormed = true ∧ (AsmItem.byte 255).wellFormed = true := by decide

theorem witness_CyclesImplementTheStep :
    (blockAt 4 3 [0x02]).Ready ∧ ∃ t, step (blockAt 4 3 [0x02]) = .next t :=
  ⟨by decide, _, rfl⟩

theorem witness_CyclesImplementTheRun :
    (blockAt 2 0 [0xFF, 0x00]).cfg.wellFormed = true ∧ (blockAt 2 0 [0xFF, 0x00]).rst = false ∧
      ∃ t, runLoop 3 (blockAt 2 0 [0xFF, 0x00]) = .next t :=
  ⟨rfl, rfl, _, rfl⟩

theorem witness_CycleCountsOfTheReference :
    (block [0x03, 0, 9]).Ready ∧ (block [0x03, 0, 9]).holdsBytes (encode (.storeAccumulator 9)) 0 = true ∧
      after State.endedFatally (step (block [0x03, 0, 9])) = some false ∧
      fetchDecode (block [0x07]) = .ok (.unrecognized 7) ∧ ∃ t, step (block [0x07]) = .next t :=
  ⟨by decide, by decide, by decide, rfl, _, rfl⟩

theorem witness_ResetDiscardsAnUnfinishedStore :
    (block [0x03, 0, 9]).Ready ∧ (block [0x03, 0, 9]).holdsBytes (encode (.storeAccumulator 9)) 0 = true ∧
      (CycleState.mk (assertReset (block [])) (.store 0 9)).arch.cfg.wellFormed = true ∧
      (CycleState.mk (assertReset (block [])) (.store 0 9)).arch.rst = true := by decide

theorem witness_PortsOfACycle :
    (CycleState.mk (block [0xFF]) .fetch).ports.memRe = true ∧
      (CycleState.mk (block [0xFF]) .fetch).ports.outValid = true ∧
      (CycleState.mk (block []) (.store 1 0)).ports.memWe = true ∧
      (CycleState.mk (block []) (.store 1 0)).ports.memOob = true := by decide

/-- The last clause at both edges of `mem_oob`: operand 255 and 256 of 256 cells. -/
theorem witness_StoreCycleWritesTheOperandAddress :
    (CycleState.mk (block []) (.store 1 0)).ports.memWe = true ∧ (block []).Ready ∧
      (block [0x03, 0, 255]).Ready ∧
      (block [0x03, 0, 255]).holdsBytes (encode (.storeAccumulator 255)) 0 = true ∧
      (block [0x03, 1, 0]).Ready ∧
      (block [0x03, 1, 0]).holdsBytes (encode (.storeAccumulator 256)) 0 = true := by decide

theorem witness_StrobesAreTheEvents :
    (CycleState.mk (block [0x07]) .fetch).arch.Ready ∧ ∃ d, tick ⟨block [0x07], .fetch⟩ = .next d :=
  ⟨by decide, _, rfl⟩

end Sys2Proof.Tests
end

namespace Sys2Proof.Machine

/-! ### The flags (spec/10_state.md R27) -/

/-- Of the five meanings only ADD's writes a flag; a store keeps them in bounds and out of bounds. -/
theorem exec_keeps_flags {i : Instr} {s t : State} (h : exec i s = .next t)
    (hadd : ∀ v, i ≠ .addImmediate v) : t.zf = s.zf ∧ t.cf = s.cf := by
  obtain ⟨u, hu, hcases⟩ := exec_cases i s
  obtain rfl : u = t := Host.Outcome.next.inj (hu.symm.trans h)
  obtain ⟨v, -, rfl⟩ | ⟨v, hi, -⟩ | ⟨a, -, -, rfl⟩ | ⟨a, -, -, rfl⟩ | ⟨-, rfl⟩ | ⟨-, rfl⟩ := hcases
  · simp only [loadAccumulator_zf, loadAccumulator_cf, and_self]
  · exact absurd hi (hadd v)
  · simp only [State.setMem_zf, State.setMem_cf, and_self]
  · simp only [raiseOutOfBounds_zf, raiseOutOfBounds_cf, and_self]
  · simp only [outputAccumulator_zf, outputAccumulator_cf, and_self]
  · simp only [haltRun_zf, haltRun_cf, and_self]

/-- Neither an unrecognized opcode nor a fetch fault writes a flag either, so with `rst` released an ADD is the
only cause of a change. -/
theorem step_keeps_flags {s t : State} (h : step s = .next t) (hrst : s.rst = false)
    (hadd : ∀ v, fetchDecode s ≠ .ok (.instr (.addImmediate v))) : t.zf = s.zf ∧ t.cf = s.cf := by
  obtain ⟨-, ⟨hr, -⟩ | ⟨-, ⟨i, hi, hexec⟩ | ⟨b, -, rfl⟩ | ⟨a, -, rfl⟩⟩⟩ := step_cases h
  · simp [hrst] at hr
  · have hnotAdd : ∀ v, i ≠ .addImmediate v := fun v hv => hadd v (hv ▸ hi)
    simpa using exec_keeps_flags hexec hnotAdd
  · simp only [stopUnrecognized_zf, stopUnrecognized_cf, and_self]
  · simp only [raiseOutOfBounds_zf, raiseOutOfBounds_cf, and_self]

/-- Settles O7: a step goes through `step_keeps_flags`; LDA's next state is `loadAccumulator v s`, which moves ACC
alone. -/
theorem flagsDescribeTheLastAdd : Obligations.FlagsDescribeTheLastAdd :=
  ⟨fun _ _ => step_keeps_flags, fun v s =>
    ⟨loadAccumulator v s, rfl, loadAccumulator_acc v s, loadAccumulator_zf v s, loadAccumulator_cf v s⟩⟩

end Sys2Proof.Machine

namespace Sys2Proof

/-! ### Decode on a list of bytes (spec/30_encoding.md R64 to R67) -/

theorem listSource_eq_ok {bs : List Byte} {k : Nat} {b : Byte} :
    listSource bs k = .ok b ↔ bs[k]? = some b := by
  unfold listSource
  split <;> simp_all

theorem listSource_eq_error {bs : List Byte} {k : Nat} {e : DecodeError} :
    listSource bs k = .error e ↔ bs.length ≤ k ∧ e = .truncated k := by
  unfold listSource
  split
  · next b hb => simp [(List.getElem?_eq_some_iff.mp hb).1]
  · next hb => simp [List.getElem?_eq_none_iff.mp hb, eq_comm]

theorem readsAs_listSource {bs cs : List Byte} : ReadsAs (listSource bs) cs ↔ cs <+: bs := by
  simp only [ReadsAs, listSource_eq_ok, List.prefix_iff_getElem?]
  constructor
  · exact fun h k hk => h k cs[k] (List.getElem?_eq_getElem hk)
  · intro h k b hb
    obtain ⟨hk, rfl⟩ := List.getElem?_eq_some_iff.mp hb
    exact h k hk

/-- Bytes that begin with an instruction's encoding decode to it, whatever follows. -/
theorem decode_encode_append (i : Instr) (rest : List Byte) : decode (encode i ++ rest) = .ok (i, rest) := by
  have hread : decodeWith (listSource (encode i ++ rest)) = .ok (.instr i) :=
    decodeWith_instr.mpr (readsAs_listSource.mpr (List.prefix_append _ _))
  simp [decode, hread, ← encode_length]

/-- An encoding cut after `k` bytes is refused for the want of byte `k` (R66). -/
theorem decode_take_encode {i : Instr} {k : Nat} (hk : k < (encode i).length) :
    decode ((encode i).take k) = .error (.truncated k) := by
  have hread : decodeWith (listSource ((encode i).take k)) = .error (.truncated k) :=
    decodeWith_error.mpr ⟨i, k, by rwa [← encode_length], readsAs_listSource.mpr List.prefix_rfl,
      listSource_eq_error.mpr ⟨List.length_take_le _ _, rfl⟩⟩
  simp [decode, hread]

/-- Only the opcode map makes decode call a byte unrecognized: a list that ends too early is refused as cut short
(R67). -/
theorem decode_eq_unrecognized {bs : List Byte} {b : Byte} :
    decode bs = .error (.unrecognized b) ↔ bs[0]? = some b ∧ opcodeOf b = none := by
  rw [← listSource_eq_ok, ← decodeWith_unrecognized, decode]
  split
  · next e he =>
    obtain ⟨-, k, -, -, hk⟩ := decodeWith_error.mp he
    simp [he, (listSource_eq_error.mp hk).2]
  · next c hc => simp [hc]
  · next i hi => simp [hi]

theorem opcode_byte_injective : Function.Injective Opcode.byte := fun o p h =>
  Option.some.inj (by rw [← opcodeOf_byte o, h, opcodeOf_byte])

theorem encode_head? (i : Instr) : (encode i).head? = some i.opcode.byte := rfl

/-- The first byte fixes the opcode, and the opcode the length (R66). -/
theorem encode_length_eq_of_head? {i j : Instr} (h : (encode i).head? = (encode j).head?) :
    (encode i).length = (encode j).length := by
  rw [encode_head?, encode_head?] at h
  have hop : i.opcode = j.opcode := opcode_byte_injective (Option.some.inj h)
  rw [encode_length, encode_length, Instr.length, Instr.length, hop]

/-- Format A, its address put together from whatever two bytes follow the opcode (R61, R63). -/
theorem decode_storeAccumulator (hi lo : Byte) (rest : List Byte) :
    decode (0x03 :: hi :: lo :: rest) = .ok (.storeAccumulator (assembleAddress hi lo), rest) := by
  have hbytes : encode (.storeAccumulator (assembleAddress hi lo)) = [0x03, hi, lo] := by
    simp [encode, Instr.opcode, Opcode.byte, addressHigh_assemble, addressLow_assemble]
  simpa [hbytes] using decode_encode_append (.storeAccumulator (assembleAddress hi lo)) rest

/-- Among the byte values the unrecognized ones are 04 to FE (R67). -/
theorem opcodeOf_ofNat_isNone {n : Nat} (hn : n < 256) :
    (opcodeOf (BitVec.ofNat 8 n)).isNone = (decide (4 ≤ n) && decide (n < 255)) := by
  rw [Bool.eq_iff_iff, Option.isNone_iff_eq_none, opcodeOf_eq_none]
  simp only [ne_eq, BitVec.toNat_eq, BitVec.reduceToNat, BitVec.toNat_ofNat, Bool.and_eq_true, decide_eq_true_eq]
  omega

theorem filter_range_unrecognized :
    (List.range 256).filter (fun n => (opcodeOf (BitVec.ofNat 8 n)).isNone) = List.Ico 4 255 := by
  rw [List.filter_congr fun n hn => opcodeOf_ofNat_isNone (List.mem_range.mp hn), ← List.filter_filter,
    ← List.Ico.zero_bot, List.Ico.filter_lt, List.Ico.filter_le]
  rfl

/-- Settles O12: the rows without an address are `decode_encode_append` at their own bytes, STA's is
`decode_storeAccumulator`; the rest is `opcodeOf_eq_none` and the count of 04 to FE. -/
theorem opcodeMapIsComplete : Obligations.OpcodeMapIsComplete := by
  refine ⟨fun v hi lo rest => ⟨?_, ?_, ?_, ?_, ?_⟩, fun b rest => ?_, ?_⟩
  · exact decode_encode_append (.loadImmediate v) rest
  · exact decode_encode_append (.addImmediate v) rest
  · exact ⟨assembleAddress hi lo, decode_storeAccumulator hi lo rest, assembleAddress_toNat hi lo⟩
  · exact decode_encode_append .output rest
  · exact decode_encode_append .halt rest
  · simp only [decode_eq_unrecognized, opcodeOf_eq_none, List.getElem?_cons_zero, List.mem_cons,
      List.not_mem_nil, not_or]
    tauto
  · rw [filter_range_unrecognized, List.Ico.length]

end Sys2Proof

namespace Sys2Proof.Machine

/-! ### The advance of IP (spec/30_encoding.md R65, R66) -/

/-- With the bytes of `i` at IP, a ready block's step is the execute phase of `i` with IP past them (R110). -/
theorem step_eq_exec_of_holdsBytes {s : State} {i : Instr} (hready : s.Ready)
    (hbytes : s.holdsBytes (encode i) s.ip.toNat = true) : step s = exec i (s.advance i.length) := by
  rw [step_ready hready, runInstruction, (fetchDecode_instr hready.1).mpr hbytes]

/-- The meanings that write IP, HLT's and a faulting STA's, stop the run. -/
theorem exec_keeps_ip_of_running {i : Instr} {s t : State} (h : exec i s = .next t) (hrun : t.run = .running) :
    t.ip = s.ip := by
  obtain ⟨u, hu, hcases⟩ := exec_cases i s
  obtain rfl : u = t := Host.Outcome.next.inj (hu.symm.trans h)
  obtain ⟨v, -, rfl⟩ | ⟨v, -, rfl⟩ | ⟨a, -, -, rfl⟩ | ⟨a, -, -, rfl⟩ | ⟨-, rfl⟩ | ⟨-, rfl⟩ := hcases
  · exact loadAccumulator_ip v s
  · exact addAccumulator_ip v s
  · exact State.setMem_ip _ s
  · simp at hrun
  · exact outputAccumulator_ip s
  · simp at hrun

/-- A step that executes the instruction held at IP and goes on has passed exactly its bytes (R66). -/
theorem step_ip_of_running {i : Instr} {s t : State} (hready : s.Ready)
    (hbytes : s.holdsBytes (encode i) s.ip.toNat = true) (h : step s = .next t) (hrun : t.run = .running) :
    t.ip = s.ip + BitVec.ofNat 16 (encode i).length := by
  rw [step_eq_exec_of_holdsBytes hready hbytes] at h
  rw [exec_keeps_ip_of_running h hrun, State.advance_ip, encode_length]

/-- Settles O13: an instruction's bytes decode to it and no shorter part does, its first byte fixes its length, and
`step_ip_of_running` gives the advance. -/
theorem lengthIsKnownFromTheOpcode : Obligations.LengthIsKnownFromTheOpcode :=
  ⟨fun i => ⟨by simpa using decode_encode_append i [], fun _ => decode_take_encode⟩,
    fun _ _ => encode_length_eq_of_head?,
    fun _ _ => ⟨rfl, rfl, rfl, rfl, rfl⟩,
    fun _ _ hready hbytes _ => step_ip_of_running hready hbytes⟩

end Sys2Proof.Machine

namespace Sys2Proof.Machine

/-! ### The fault of a fetch, and LDA and ADD (spec/40_accumulator_alu.md R81, R82) -/

/-- Taking the out-of-bounds condition leaves the state as it was but for `RUN` and the open `IP` (R135). -/
theorem faultedAt_raiseOutOfBounds (a : Addr) (s : State) : s.faultedAt a (raiseOutOfBounds a s) := rfl

/-- The fetch of any instruction faults at its first byte past the end of memory (R132, R134). -/
theorem fetchRaises (i : Instr) (s : State) : FetchRaises i s := by
  intro hready k hk hbytes hpast
  have hfetch : fetchDecode s = .error (.outOfBounds (s.ip + BitVec.ofNat 16 k)) :=
    (fetchDecode_outOfBounds hready.1).mpr ⟨i, k, hk, hbytes, hpast, rfl⟩
  refine ⟨raiseOutOfBounds (s.ip + BitVec.ofNat 16 k) s, ?_, faultedAt_raiseOutOfBounds _ s⟩
  simp only [step_ready hready, runInstruction, hfetch, raise]

/-- The result of the adder in numbers (R80). -/
theorem aluResult_toNat (a v : Byte) : (aluResult a v).toNat = (a.toNat + v.toNat) % 256 := by
  simp [aluResult, aluSum]

theorem aluCarry_eq_true {a v : Byte} : aluCarry a v = true ↔ a.toNat + v.toNat > 255 := decide_eq_true_iff

theorem aluZero_eq_true {a v : Byte} : aluZero a v = true ↔ aluResult a v = 0 := decide_eq_true_iff

/-- LDA's execute phase moves ACC alone, so fetching it adds only the advance of IP. -/
theorem loadAccumulator_advance (v : Byte) (n : Nat) (s : State) :
    loadAccumulator v (s.advance n) = { s with acc := v, ip := s.ip + BitVec.ofNat 16 n } := rfl

/-- ADD reads no IP, so it may be advanced before the addition or after it. -/
theorem addAccumulator_advance (v : Byte) (n : Nat) (s : State) :
    addAccumulator v (s.advance n) = (addAccumulator v s).advance n := rfl

/-- Settles O1: the fetched LDA is `loadAccumulator` at the advanced IP, and its fetch faults as any other does. -/
theorem ldaLoadsItsImmediate : Obligations.LdaLoadsItsImmediate := by
  intro v s
  refine ⟨rfl, rfl, fun hready hbytes => ?_, fetchRaises _ s⟩
  calc step s = exec (.loadImmediate v) (s.advance 2) :=
        step_eq_exec_of_holdsBytes (i := .loadImmediate v) hready hbytes
    _ = .next { s with acc := v, ip := s.ip + 2 } := congrArg _ (loadAccumulator_advance v 2 s)

/-- Settles O2: the next state is `addAccumulator v s`; its fields are the adder's outputs and `OPR` by the two
values of `OPREG_ON_ADD`, and the fetched ADD adds first and advances IP after. -/
theorem addAddsItsImmediate : Obligations.AddAddsItsImmediate := by
  intro v s
  refine ⟨⟨addAccumulator v s, rfl, ?_, ?_, ?_, ?_, ?_, rfl, fun hready hbytes => ?_⟩, rfl, fetchRaises _ s⟩
  · rw [addAccumulator_acc, aluResult_toNat]
  · rw [addAccumulator_cf, aluCarry_eq_true]
  · rw [addAccumulator_zf, addAccumulator_acc, aluZero_eq_true]
  · intro hunchanged
    rw [addAccumulator_opr, hunchanged, oprAfterAdd]
  · intro hload
    rw [addAccumulator_opr, hload, oprAfterAdd]
  · calc step s = exec (.addImmediate v) (s.advance 2) :=
          step_eq_exec_of_holdsBytes (i := .addImmediate v) hready hbytes
      _ = .next { addAccumulator v s with ip := s.ip + 2 } := congrArg _ (addAccumulator_advance v 2 s)

end Sys2Proof.Machine

namespace Sys2Proof.Machine

/-! ### STA (spec/41_store.md R90) -/

/-- What a store leaves at a cell in bounds is read back from it (R42, R46). -/
theorem memRead_setMem_setCell_self {s : State} {a : Addr} (v : Byte) (h : a.toNat < s.cfg.memSize) :
    memRead (s.setMem (Memory.setCell s.mem a.toNat v)) a = .ok v :=
  memRead_eq_ok.mpr ⟨h, Memory.cellAt_setCell_self s.mem a.toNat v⟩

/-- A fetched STA in bounds stores what executing it alone stores, with IP past its three bytes. -/
theorem step_storeAccumulator_inBounds {a : Addr} {s : State} (hready : s.Ready)
    (hbytes : s.holdsBytes (encode (.storeAccumulator a)) s.ip.toNat = true) (h : a.toNat < s.cfg.memSize) :
    step s = .next ((s.setMem (Memory.setCell s.mem a.toNat s.acc)).advance 3) := by
  rw [step_eq_exec_of_holdsBytes hready hbytes]
  exact exec_storeAccumulator_inBounds (s := s.advance 3) h

/-- A fetched STA out of bounds takes the fault at its operand, raised after IP has advanced (R132). -/
theorem step_storeAccumulator_outOfBounds {a : Addr} {s : State} (hready : s.Ready)
    (hbytes : s.holdsBytes (encode (.storeAccumulator a)) s.ip.toNat = true) (h : s.cfg.memSize ≤ a.toNat) :
    step s = .next (raiseOutOfBounds a (s.advance 3)) := by
  rw [step_eq_exec_of_holdsBytes hready hbytes]
  exact exec_storeAccumulator_outOfBounds (s := s.advance 3) h

/-- The fault of a step does not show how far IP had advanced: `IP` is open in a Faulted state (R135). -/
theorem faultedAt_raiseOutOfBounds_advance (a : Addr) (n : Nat) (s : State) :
    s.faultedAt a (raiseOutOfBounds a (s.advance n)) := rfl

/-- The operand in numbers, from the two bytes of its encoding (R63). -/
theorem toNat_eq_address_bytes (a : Addr) : a.toNat = (addressHigh a).toNat * 256 + (addressLow a).toNat := by
  rw [← assembleAddress_toNat, assembleAddress_bytes]

/-- Settles O3: in bounds the next state is `s` with the one cell set, out of bounds it is `raiseOutOfBounds` at the
operand; a fetched STA does the same with IP past it. -/
theorem staStoresOrFaults : Obligations.StaStoresOrFaults := by
  intro a s
  refine ⟨fun h => ?_, fun h => ⟨?_, fun hready hbytes => ?_⟩, rfl, rfl, toNat_eq_address_bytes a, fetchRaises _ s⟩
  · refine ⟨_, exec_storeAccumulator_inBounds h, ?_, fun b hb => ?_, rfl, fun hready hbytes => ?_⟩
    · exact memRead_setMem_setCell_self s.acc h
    · exact Memory.cellAt_setCell_other s.mem s.acc hb
    · exact step_storeAccumulator_inBounds hready hbytes h
  · exact ⟨_, exec_storeAccumulator_outOfBounds h, faultedAt_raiseOutOfBounds a s⟩
  · exact ⟨_, step_storeAccumulator_outOfBounds hready hbytes h, faultedAt_raiseOutOfBounds_advance a 3 s⟩

end Sys2Proof.Machine

namespace Sys2Proof.Machine

/-! ### HLT (spec/42_output_halt.md R101) -/

/-- A configuration in range has a MEM_SIZE that fits the 16 bits of IP (R9, D2), so the sentinel is the number
itself. -/
theorem haltRun_ip_toNat {s : State} (hcfg : s.cfg.wellFormed = true) :
    (haltRun s).ip.toNat = s.cfg.memSize := by
  simp only [Config.wellFormed, Bool.and_eq_true, decide_eq_true_eq] at hcfg
  rw [haltRun_ip, BitVec.toNat_ofNat]
  omega

/-- HLT overwrites IP and reads nothing of it, so its place does not show (R101). -/
theorem haltRun_advance (n : Nat) (s : State) : haltRun (s.advance n) = haltRun s := rfl

/-- Settles O5: the next state is `haltRun s`, and the fetched HLT leaves the same one by `haltRun_advance`. -/
theorem hltStopsTheRun : Obligations.HltStopsTheRun := by
  intro s
  refine ⟨⟨haltRun s, rfl, haltRun_ip_toNat, rfl, fun hready hbytes => ?_⟩, rfl, fetchRaises _ s⟩
  calc step s = exec .halt (s.advance 1) := step_eq_exec_of_holdsBytes (i := .halt) hready hbytes
    _ = .next (haltRun s) := congrArg Host.Outcome.next (haltRun_advance 1 s)

end Sys2Proof.Machine

namespace Sys2Proof.Machine

/-! ### The two exceptional conditions (spec/60_exceptions.md R131, R132) -/

/-- With an opcode byte at IP that is none of the five, a ready block's step is the unrecognized stop, whatever the
other cells hold (R131). -/
theorem step_eq_stopUnrecognized {s : State} {b : Byte} (hready : s.Ready) (hip : s.ip.toNat < s.cfg.memSize)
    (hcell : Memory.cellAt s.mem s.ip.toNat = some b) (hb : opcodeOf b = none) :
    step s = .next (stopUnrecognized b s) := by
  rw [step_ready hready, runInstruction, fetchDecode_unrecognized.mpr ⟨hip, hcell, hb⟩]

/-- Settles O16: a byte outside the list has no opcode, and the next state of `step_eq_stopUnrecognized` is the one
written out. -/
theorem unrecognizedOpcodeStops : Obligations.UnrecognizedOpcodeStops := by
  intro s b hready hip hcell hb
  have hnone : opcodeOf b = none := by
    simp only [List.mem_cons, List.not_mem_nil, not_or] at hb
    rw [opcodeOf_eq_none]
    tauto
  exact step_eq_stopUnrecognized hready hip hcell hnone

/-- Of the five meanings only STA's faults, at its own operand address (R132). -/
theorem exec_faulted_cause {i : Instr} {s t : State} {a : Addr} {n : Nat} (h : exec i s = .next t)
    (hs : s.run = .running) (ht : t.run = .faulted a n) :
    i = .storeAccumulator a ∧ s.cfg.memSize ≤ a.toNat ∧ t = raiseOutOfBounds a s := by
  obtain ⟨u, hu, hcases⟩ := exec_cases i s
  obtain rfl : u = t := Host.Outcome.next.inj (hu.symm.trans h)
  obtain ⟨v, -, rfl⟩ | ⟨v, -, rfl⟩ | ⟨c, -, -, rfl⟩ | ⟨c, rfl, hc, rfl⟩ | ⟨-, rfl⟩ | ⟨-, rfl⟩ := hcases
  · simp [hs] at ht
  · simp [hs] at ht
  · simp [hs] at ht
  · obtain ⟨rfl, -⟩ := Run.faulted.inj ht
    exact ⟨rfl, hc, rfl⟩
  · simp [hs] at ht
  · simp at ht

/-- A step that ends Faulted took the fault at an instruction byte or at the operand of the STA it fetched, with IP
past the three bytes (R132). -/
theorem step_faulted_cause {s t : State} {a : Addr} {n : Nat} (h : step s = .next t) (ht : t.run = .faulted a n) :
    s.Ready ∧
      ((fetchDecode s = .error (.outOfBounds a) ∧ t = raiseOutOfBounds a s) ∨
        (fetchDecode s = .ok (.instr (.storeAccumulator a)) ∧ s.cfg.memSize ≤ a.toNat ∧
          t = raiseOutOfBounds a (s.advance 3))) := by
  obtain ⟨-, ⟨-, rfl⟩ | ⟨hready, ⟨i, hi, hexec⟩ | ⟨b, -, rfl⟩ | ⟨c, hc, rfl⟩⟩⟩ := step_cases h
  · simp at ht
  · have ⟨_, _, hrunning⟩ := hready
    obtain ⟨rfl, ha, rfl⟩ := exec_faulted_cause hexec hrunning ht
    exact ⟨hready, .inr ⟨hi, ha, rfl⟩⟩
  · simp at ht
  · obtain ⟨rfl, -⟩ := Run.faulted.inj ht
    exact ⟨hready, .inl ⟨hc, rfl⟩⟩

/-- A fetch that leaves memory does so at IP, or past a held part of an instruction at exactly `MEM_SIZE`, since the
bytes before the faulting one lie in memory (R132, R134). -/
theorem fetchDecode_outOfBounds_cause {s : State} {a : Addr} (hc : s.cfg.wellFormed = true)
    (h : fetchDecode s = .error (.outOfBounds a)) :
    s.cfg.memSize ≤ a.toNat ∧
      (a = s.ip ∨
        ∃ i k, 1 ≤ k ∧ k < Instr.length i ∧ s.holdsBytes ((encode i).take k) s.ip.toNat = true ∧
          a.toNat = s.ip.toNat + k ∧ a.toNat = s.cfg.memSize) := by
  obtain ⟨i, k, hk, hbytes, hpast, rfl⟩ := (fetchDecode_outOfBounds hc).mp h
  rcases Nat.eq_zero_or_pos k with rfl | hpos
  · exact ⟨by simpa using hpast, .inl (BitVec.add_zero s.ip)⟩
  · have htake : ((encode i).take k).length = k := List.length_take_of_le (by rw [encode_length]; omega)
    have hinside : s.ip.toNat + ((encode i).take k).length ≤ s.cfg.memSize :=
      holdsBytes_inside (List.ne_nil_of_length_pos (by omega)) hbytes
    have hlen : i.length ≤ 3 := length_le_three i
    have haddr : (s.ip + BitVec.ofNat 16 k).toNat = s.ip.toNat + k := ip_offset_toNat hc (by omega) (by omega)
    exact ⟨by omega, .inr ⟨i, k, hpos, hk, hbytes, haddr, by omega⟩⟩

/-- Settles O17: `step_faulted_cause` leaves the fetch's fault, traced to its byte by `fetchDecode_outOfBounds_cause`,
and STA's; that each raises the condition is `fetchRaises` and `step_storeAccumulator_outOfBounds`. -/
theorem outOfBoundsHasTheseCausesOnly : Obligations.OutOfBoundsHasTheseCausesOnly := by
  refine ⟨fun s t a n h ht => ?_, fetchRaises, fun s a hready hbytes ha => ?_⟩
  · obtain ⟨hready, ⟨hfetch, rfl⟩ | ⟨hfetch, ha, rfl⟩⟩ := step_faulted_cause h ht
    · obtain ⟨ha, hcause⟩ := fetchDecode_outOfBounds_cause hready.1 hfetch
      obtain ⟨-, rfl⟩ := Run.faulted.inj ht
      exact ⟨hready, rfl, ha, faultedAt_raiseOutOfBounds a s, rfl, hcause.imp_right .inl⟩
    · obtain ⟨-, rfl⟩ := Run.faulted.inj ht
      exact ⟨hready, rfl, ha, faultedAt_raiseOutOfBounds_advance a 3 s, rfl,
        .inr (.inr ((fetchDecode_instr hready.1).mp hfetch))⟩
  · exact ⟨_, step_storeAccumulator_outOfBounds hready hbytes ha, faultedAt_raiseOutOfBounds_advance a 3 s⟩

end Sys2Proof.Machine

namespace Sys2Proof

/-! ### Decode and encode agree (spec/30_encoding.md sections 1 to 4) -/

/-- Settles O10: `decode_encode_append`, every instruction being well-formed (R68). -/
theorem decodeOfEncode : Obligations.DecodeOfEncode :=
  fun i rest _ => decode_encode_append i rest

/-- Settles O11: decode found the instruction's bytes at the head of the list, and dropped as many. -/
theorem encodeOfDecode : Obligations.EncodeOfDecode := by
  intro bs rest i h
  have hhead : decodeWith (listSource bs) = .ok (.instr i) ∧ bs.drop i.length = rest := by
    unfold decode at h
    split at h
    · cases h
    · cases h
    · next j hj =>
      cases h
      exact ⟨hj, rfl⟩
  obtain ⟨hread, rfl⟩ := hhead
  obtain ⟨tail, rfl⟩ := readsAs_listSource.mp (decodeWith_instr.mp hread)
  rw [← encode_length, List.drop_left]

/-- Settles O14: the words are encodings (STA's with its address put together), but for 04, which is no opcode. -/
theorem wordsDecodeAsTabled : Obligations.WordsDecodeAsTabled :=
  ⟨decode_encode_append (.loadImmediate 5) [], decode_encode_append (.addImmediate 3) [],
    decode_storeAccumulator 0x12 0x34 [], decode_encode_append .output [], decode_encode_append .halt [],
    decode_eq_unrecognized.mpr ⟨rfl, rfl⟩⟩

theorem decode_encode (i : Instr) : decode (encode i) = .ok (i, []) := by
  simpa using decode_encode_append i []

end Sys2Proof

namespace Sys2Proof.Machine

/-! ### The assembly lines (spec/30_encoding.md R71) -/

/-- Settles O37: a line in bounds is the encoding of its instruction, and its bound is that of the operand's type. -/
theorem assemblyLinesEncode : Obligations.AssemblyLinesEncode := by
  refine ⟨fun n hn => ⟨_, decode_encode _, ?_⟩, fun n hn => ⟨_, decode_encode _, ?_⟩,
    fun m hm => ⟨_, decode_encode _, ?_⟩, decode_encode .output, decode_encode .halt, fun n hn => ?_⟩
  · exact Nat.mod_eq_of_lt (Nat.lt_succ_of_le (of_decide_eq_true hn))
  · exact Nat.mod_eq_of_lt (Nat.lt_succ_of_le (of_decide_eq_true hn))
  · exact Nat.mod_eq_of_lt (Nat.lt_succ_of_le (of_decide_eq_true hm))
  · exact congrArg ([·]) (Nat.mod_eq_of_lt (Nat.lt_succ_of_le (of_decide_eq_true hn)))

/-! ### The adder and sums of immediates (spec/40_accumulator_alu.md R80, R83) -/

/-- The zero output in numbers: of the sum after the wrap (R80). -/
theorem aluZero_eq_decide (a v : Byte) : aluZero a v = decide ((a.toNat + v.toNat) % 256 = 0) := by
  rw [Bool.eq_iff_iff, aluZero_eq_true, decide_eq_true_iff, ← aluResult_toNat]
  exact BitVec.toNat_inj.symm

/-- Two bytes sum to at most 510, so the ninth bit is the carry (R80). -/
theorem aluCarry_eq_testBit (a v : Byte) : aluCarry a v = (a.toNat + v.toNat).testBit 8 := by
  have ha := a.isLt
  have hv := v.isLt
  rw [aluCarry, aluSum, Nat.testBit_eq_decide_div_mod_eq]
  exact decide_eq_decide.mpr (by omega)

/-- Settles O8: every output of the adder is a function of the one exact sum. -/
theorem adderComputesNineBits : Obligations.AdderComputesNineBits := by
  intro a v
  refine ⟨?_, aluResult_toNat a v, fun k hk => ?_, aluCarry_eq_testBit a v, aluZero_eq_decide a v⟩
  · have ha := a.isLt
    have hv := v.isLt
    simp only [aluSum]
    omega
  · rw [← BitVec.testBit_toNat, aluResult_toNat, show 256 = 2 ^ 8 from rfl, Nat.testBit_mod_two_pow]
    simp [hk]

/-- ADDs executed one after another leave in ACC what it held plus their immediates, modulo 256 (R83). -/
theorem execAll_addImmediate (vs : List Byte) (s : State) :
    ∃ t, execAll (vs.map .addImmediate) s = .next t ∧
      t.acc.toNat = (s.acc.toNat + (vs.map BitVec.toNat).sum) % 256 := by
  induction vs generalizing s with
  | nil => exact ⟨s, rfl, (Nat.mod_eq_of_lt s.acc.isLt).symm⟩
  | cons v vs ih =>
    obtain ⟨t, hrun, hacc⟩ := ih (addAccumulator v s)
    refine ⟨t, hrun, ?_⟩
    rw [hacc, addAccumulator_acc, aluResult_toNat, List.map_cons, List.sum_cons, Nat.mod_add_mod, Nat.add_assoc]

/-- Settles O9: `execAll_addImmediate` after the LDA, and one addition more, whose flags are the adder's. -/
theorem addsSumModulo256 : Obligations.AddsSumModulo256 := by
  intro a vs v s
  obtain ⟨t, hrun, hacc⟩ := execAll_addImmediate vs (loadAccumulator a s)
  rw [loadAccumulator_acc] at hacc
  refine ⟨t, addAccumulator v t, hrun, rfl, hacc, ?_, ?_, ?_⟩
  · rw [addAccumulator_acc, aluResult_toNat, hacc, Nat.mod_add_mod]
  · rw [addAccumulator_cf, aluCarry_eq_true, hacc]
  · rw [addAccumulator_zf, aluZero_eq_decide, decide_eq_true_iff, hacc, Nat.mod_add_mod]

end Sys2Proof.Machine

namespace Sys2Proof.Machine

/-! ### What an execute phase and a step keep (spec/10_state.md section 1) -/

/-- `exec_cases` for an execute phase already known to answer `t`. -/
theorem exec_next_cases {i : Instr} {s t : State} (h : exec i s = .next t) :
    (∃ v, i = .loadImmediate v ∧ t = loadAccumulator v s) ∨
      (∃ v, i = .addImmediate v ∧ t = addAccumulator v s) ∨
      (∃ a, i = .storeAccumulator a ∧ a.toNat < s.cfg.memSize ∧
        t = s.setMem (Memory.setCell s.mem a.toNat s.acc)) ∨
      (∃ a, i = .storeAccumulator a ∧ s.cfg.memSize ≤ a.toNat ∧ t = raiseOutOfBounds a s) ∨
      (i = .output ∧ t = outputAccumulator s) ∨
      (i = .halt ∧ t = haltRun s) := by
  obtain ⟨u, hu, hcases⟩ := exec_cases i s
  obtain rfl : u = t := Host.Outcome.next.inj (hu.symm.trans h)
  exact hcases

/-- A store in bounds is read back at its own address alone (R42). -/
theorem memRead_setMem_setCell_other {s : State} {a b : Addr} (v : Byte) (h : b ≠ a) :
    memRead (s.setMem (Memory.setCell s.mem a.toNat v)) b = memRead s b :=
  memRead_congr rfl (Memory.cellAt_setCell_other s.mem v fun e => h (BitVec.eq_of_toNat_eq e))

/-! The other operations write no cell, so a read after them is a read before. -/

@[simp] theorem memRead_loadAccumulator (v : Byte) (s : State) (a : Addr) :
    memRead (loadAccumulator v s) a = memRead s a := rfl

@[simp] theorem memRead_addAccumulator (v : Byte) (s : State) (a : Addr) :
    memRead (addAccumulator v s) a = memRead s a := rfl

@[simp] theorem memRead_raiseOutOfBounds (c : Addr) (s : State) (a : Addr) :
    memRead (raiseOutOfBounds c s) a = memRead s a := rfl

@[simp] theorem memRead_outputAccumulator (s : State) (a : Addr) :
    memRead (outputAccumulator s) a = memRead s a := rfl

@[simp] theorem memRead_haltRun (s : State) (a : Addr) : memRead (haltRun s) a = memRead s a := rfl

/-- Settles O6: the six next states of `exec_next_cases`, each read off by the lemmas of its operation. -/
theorem everyInstructionFrame : Obligations.EveryInstructionFrame := by
  intro i s t h
  obtain ⟨v, rfl, rfl⟩ | ⟨v, rfl, rfl⟩ | ⟨a, rfl, -, rfl⟩ | ⟨a, rfl, -, rfl⟩ | ⟨rfl, rfl⟩ | ⟨rfl, rfl⟩ :=
    exec_next_cases h
  · simp [Instr.opcode]
  · simp +contextual [Instr.opcode, oprAfterAdd]
  · simp +contextual [Instr.opcode, effectiveAddress, memRead_setMem_setCell_other]
  · simp [Instr.opcode]
  · simp [Instr.opcode]
  · simp [Instr.opcode]

/-- No instruction changes the configuration or the reset input (R20, R33). -/
theorem exec_keeps_cfg_rst {i : Instr} {s t : State} (h : exec i s = .next t) :
    t.cfg = s.cfg ∧ t.rst = s.rst := by
  obtain ⟨-, -, -, -, -, -, -, hrst, hcfg⟩ := everyInstructionFrame i s t h
  exact ⟨hcfg, hrst⟩

/-- Nor does any step, reset included. -/
theorem step_keeps_cfg_rst {s t : State} (h : step s = .next t) : t.cfg = s.cfg ∧ t.rst = s.rst := by
  obtain ⟨-, ⟨-, rfl⟩ | ⟨-, ⟨i, -, hexec⟩ | ⟨b, -, rfl⟩ | ⟨a, -, rfl⟩⟩⟩ := step_cases h
  · exact ⟨rfl, rfl⟩
  · simpa using exec_keeps_cfg_rst hexec
  · exact ⟨rfl, rfl⟩
  · exact ⟨rfl, rfl⟩

end Sys2Proof.Machine

namespace Sys2Proof.Machine

/-! ### The step at a held instruction (spec/10_state.md R24, spec/43_control_sequencer.md R110) -/

/-- Settles O15: `step_eq_exec_of_holdsBytes`, an encoding having the length of its instruction. -/
theorem stepRunsTheDecodedInstruction : Obligations.StepRunsTheDecodedInstruction := by
  intro s i hready _ hbytes
  rw [step_eq_exec_of_holdsBytes hready hbytes, encode_length]
  rfl

/-- A held instruction ends inside memory (R24). -/
theorem instr_inside {s : State} {i : Instr} (hbytes : s.holdsBytes (encode i) s.ip.toNat = true) :
    s.ip.toNat + i.length ≤ s.cfg.memSize := by
  rw [← encode_length]
  exact holdsBytes_inside (by simp [encode]) hbytes

/-- Past a held instruction `IP` is the unbounded sum (R24). -/
theorem advance_ip_toNat {s : State} {i : Instr} (hc : s.cfg.wellFormed = true)
    (hbytes : s.holdsBytes (encode i) s.ip.toNat = true) :
    (s.advance i.length).ip.toNat = s.ip.toNat + i.length :=
  ip_offset_toNat hc (length_le_three i) (instr_inside hbytes)

/-- Settles O21: a held instruction ends inside memory, and no address up to MEM_SIZE wraps. -/
theorem ipAdvanceNeverWraps : Obligations.IpAdvanceNeverWraps :=
  fun _ _ hready hbytes => ⟨advance_ip_toNat hready.1 hbytes, instr_inside hbytes⟩

/-- Settles O22: after the STA the block is ready at the cell it stored to, and that byte is no opcode. -/
theorem nextFetchSeesTheStore : Obligations.NextFetchSeesTheStore := by
  intro s a hready hbytes ha hin hacc
  have hip : (s.advance 3).ip.toNat = a.toNat := by
    rw [ha]
    exact advance_ip_toNat (i := .storeAccumulator a) hready.1 hbytes
  refine ⟨_, _, step_storeAccumulator_inBounds hready hbytes hin,
    step_eq_stopUnrecognized hready ?_ ?_ hacc, rfl, rfl⟩
  · exact hip ▸ hin
  · exact (congrArg _ hip).trans (Memory.cellAt_setCell_self s.mem a.toNat s.acc)

end Sys2Proof.Machine

namespace Sys2Proof.Machine

/-! ### Stops and the transitions of RUN (spec/60_exceptions.md R135, spec/43_control_sequencer.md R112) -/

/-- A stopped block with `rst` released takes no step (R116; log 7). -/
theorem step_stopped {s : State} (hc : s.cfg.wellFormed = true) (hr : s.rst = false) (hs : s.run ≠ .running) :
    step s = .refused .stopped := by
  cases hrun : s.run with
  | running => exact absurd hrun hs
  | halted => simp [step, controlStep, hc, hr, hrun]
  | unrecognized b => simp [step, controlStep, hc, hr, hrun]
  | faulted a n => simp [step, controlStep, hc, hr, hrun]

/-- The step of a ready block whose fetch leaves memory takes the fault (R132). -/
theorem step_fetch_outOfBounds {s : State} {a : Addr} (hready : s.Ready)
    (hfetch : fetchDecode s = .error (.outOfBounds a)) : step s = .next (raiseOutOfBounds a s) := by
  simp only [step_ready hready, runInstruction, hfetch, raise]

/-- The step of a ready block whose fetch finds no opcode stops there (R131). -/
theorem step_fetch_unrecognized {s : State} {b : Byte} (hready : s.Ready)
    (hfetch : fetchDecode s = .ok (.unrecognized b)) : step s = .next (stopUnrecognized b s) := by
  simp only [step_ready hready, runInstruction, hfetch]

/-- A ready block executes the instruction its fetch finds (R110). -/
theorem step_fetch_instr {s : State} {i : Instr} (hready : s.Ready) (hfetch : fetchDecode s = .ok (.instr i)) :
    step s = exec i (s.advance i.length) := by
  simp only [step_ready hready, runInstruction, hfetch]

/-- A step that ends Halted executed a HLT, one that ends Unrecognized stopped at its opcode byte, and one that ends
Faulted changed nothing else but the open `IP`. -/
theorem step_next_stop_cases {s t : State} (h : step s = .next t) (hr : s.rst = false) :
    t.run = .running ∨ t = haltRun s ∨ (∃ b, t = stopUnrecognized b s) ∨ ∃ a, s.faultedAt a t := by
  obtain ⟨-, ⟨hrst, -⟩ | ⟨⟨-, -, hrun⟩, ⟨i, -, hexec⟩ | ⟨b, -, rfl⟩ | ⟨a, -, rfl⟩⟩⟩ := step_cases h
  · simp [hr] at hrst
  · obtain ⟨v, -, rfl⟩ | ⟨v, -, rfl⟩ | ⟨a, -, -, rfl⟩ | ⟨a, -, -, rfl⟩ | ⟨-, rfl⟩ | ⟨-, rfl⟩ :=
      exec_next_cases hexec
    · exact .inl hrun
    · exact .inl hrun
    · exact .inl hrun
    · exact .inr (.inr (.inr ⟨a, faultedAt_raiseOutOfBounds_advance a _ s⟩))
    · exact .inl hrun
    · exact .inr (.inl (haltRun_advance _ s))
  · exact .inr (.inr (.inl ⟨b, rfl⟩))
  · exact .inr (.inr (.inr ⟨a, faultedAt_raiseOutOfBounds a s⟩))

/-- Settles O18: `step_next_stop_cases` says which stop it is, and each stop is one record update. -/
theorem stopsArePrecise : Obligations.StopsArePrecise := by
  intro s t h hr
  obtain ⟨hcfg, hrst⟩ := step_keeps_cfg_rst h
  obtain ⟨hc, -⟩ := step_cases h
  have hstop : t.run ≠ .running → step t = .refused .stopped :=
    step_stopped (hcfg ▸ hc) (hrst.trans hr)
  obtain hrun | rfl | ⟨b, rfl⟩ | ⟨a, ht⟩ := step_next_stop_cases h hr
  · simp [hrun]
  · exact ⟨fun _ => ⟨haltRun_ip_toNat hc, rfl⟩, by simp, by simp, hstop⟩
  · refine ⟨by simp, fun c hb => ?_, by simp, hstop⟩
    obtain rfl : b = c := Run.unrecognized.inj hb
    rfl
  · have hfaulted : t.run = .faulted a s.cfg.memSize := by rw [ht]
    refine ⟨by simp [hfaulted], by simp [hfaulted], fun c n hrun => ?_, hstop⟩
    obtain ⟨rfl, rfl⟩ := Run.faulted.inj (hfaulted.symm.trans hrun)
    exact ⟨ht, rfl⟩

/-- What the execute phase leaves in RUN: only HLT and an STA out of bounds stop the run (R112). -/
theorem exec_run_of_running {i : Instr} {s : State} (hs : s.run = .running) (hi : i ≠ .halt)
    (hsta : ∀ a, i = .storeAccumulator a → a.toNat < s.cfg.memSize) :
    ∃ t, exec i s = .next t ∧ t.run = .running := by
  cases i with
  | loadImmediate v => exact ⟨_, rfl, hs⟩
  | addImmediate v => exact ⟨_, rfl, hs⟩
  | storeAccumulator a => exact ⟨_, exec_storeAccumulator_inBounds (hsta a rfl), hs⟩
  | output => exact ⟨_, rfl, hs⟩
  | halt => exact absurd rfl hi

/-- Settles O19: row by row, what the step answers for each result of the fetch. -/
theorem runHasTheseTransitions : Obligations.RunHasTheseTransitions := by
  intro s hc
  refine ⟨fun hr => ⟨_, step_reset hc hr, rfl⟩, fun hr hs t h => ?_, fun hready => ⟨?_, ?_, ?_, ?_, ?_⟩⟩
  · rw [step_stopped hc hr hs] at h
    cases h
  · intro i hfetch hi hsta
    rw [step_fetch_instr hready hfetch]
    exact exec_run_of_running (s := s.advance i.length) hready.2.2 hi hsta
  · intro hfetch
    exact ⟨_, step_fetch_instr hready hfetch, rfl⟩
  · intro b hfetch
    exact ⟨_, step_fetch_unrecognized hready hfetch, rfl⟩
  · intro a hfetch
    exact ⟨(fetchDecode_outOfBounds_cause hc hfetch).1, _, step_fetch_outOfBounds hready hfetch, rfl⟩
  · intro a hfetch ha
    exact ⟨_, step_storeAccumulator_outOfBounds hready ((fetchDecode_instr hc).mp hfetch) ha, rfl⟩

end Sys2Proof.Machine

namespace Sys2Proof.Machine

/-! ### The invariant (spec/10_state.md sections 3 and 5) -/

/-- A Running block is consistent while `IP` has not left memory (R24). -/
theorem runConsistent_of_running {s : State} (hrun : s.run = .running) :
    s.runConsistent = true ↔ s.ip.toNat ≤ s.cfg.memSize := by
  simp [State.runConsistent, hrun]

/-- The invariant of a Running block, whose RUN asks only for `IP` within memory. -/
theorem inv_of_running {s : State} (hc : s.cfg.wellFormed = true) (hwf : Memory.wf s.mem = true)
    (hwithin : Memory.within s.cfg.memSize s.mem = true) (hrun : s.run = .running)
    (hip : s.ip.toNat ≤ s.cfg.memSize) : s.Inv :=
  ⟨hc, hwf, hwithin, (runConsistent_of_running hrun).mpr hip⟩

/-- Past the instruction it holds a ready block still meets the invariant. -/
theorem inv_advance {s : State} {i : Instr} (hinv : s.Inv) (hrun : s.run = .running)
    (hbytes : s.holdsBytes (encode i) s.ip.toNat = true) : (s.advance i.length).Inv := by
  obtain ⟨hc, hwf, hwithin, -⟩ := hinv
  refine inv_of_running hc hwf hwithin hrun ?_
  rw [advance_ip_toNat hc hbytes]
  exact instr_inside hbytes

/-- The fault of an address past the end keeps the invariant: its record is that address and MEM_SIZE (R132). -/
theorem inv_raiseOutOfBounds {s : State} {a : Addr} (hinv : s.Inv) (ha : s.cfg.memSize ≤ a.toNat) :
    (raiseOutOfBounds a s).Inv := by
  obtain ⟨hc, hwf, hwithin, -⟩ := hinv
  exact ⟨hc, hwf, hwithin, by simp [State.runConsistent, ha]⟩

/-- The stop at an unrecognized opcode leaves that byte just before `IP` (R131). -/
theorem inv_stopUnrecognized {s : State} {b : Byte} (hinv : s.Inv)
    (hfetch : fetchDecode s = .ok (.unrecognized b)) : (stopUnrecognized b s).Inv := by
  obtain ⟨hc, hwf, hwithin, -⟩ := hinv
  obtain ⟨hip, hcell, hb⟩ := fetchDecode_unrecognized.mp hfetch
  have hnext : (s.ip + BitVec.ofNat 16 1).toNat = s.ip.toNat + 1 := ip_offset_toNat hc (by omega) hip
  refine ⟨hc, hwf, hwithin, ?_⟩
  simp only [State.runConsistent, stopUnrecognized_run, stopUnrecognized_ip, stopUnrecognized_mem,
    stopUnrecognized_cfg, hnext]
  simp [hb, hcell, Nat.succ_le_of_lt hip]

/-- Every execute phase of a Running block keeps the invariant. -/
theorem exec_keeps_inv {i : Instr} {s t : State} (hinv : s.Inv) (hrun : s.run = .running)
    (h : exec i s = .next t) : t.Inv := by
  have ⟨hc, hwf, hwithin, hcons⟩ := hinv
  have hip := (runConsistent_of_running hrun).mp hcons
  obtain ⟨v, -, rfl⟩ | ⟨v, -, rfl⟩ | ⟨a, -, ha, rfl⟩ | ⟨a, -, ha, rfl⟩ | ⟨-, rfl⟩ | ⟨-, rfl⟩ := exec_next_cases h
  · exact inv_of_running hc hwf hwithin hrun hip
  · exact inv_of_running hc hwf hwithin hrun hip
  · exact inv_of_running hc (Memory.wf_setCell s.mem _ _ hwf) (Memory.within_setCell _ s.mem _ _ ha hwithin) hrun hip
  · exact inv_raiseOutOfBounds hinv ha
  · exact inv_of_running hc hwf hwithin hrun hip
  · exact ⟨hc, hwf, hwithin, decide_eq_true (haltRun_ip_toNat hc)⟩

/-- Settles O23: of the four kinds of step, reset goes to `IP` 0, and each of the others has its lemma above. -/
theorem everyStepKeepsTheInvariant : Obligations.EveryStepKeepsTheInvariant := by
  intro s t hinv h
  obtain ⟨hc, ⟨-, rfl⟩ | ⟨⟨-, -, hrun⟩, ⟨i, hfetch, hexec⟩ | ⟨b, hfetch, rfl⟩ | ⟨a, hfetch, rfl⟩⟩⟩ := step_cases h
  · obtain ⟨-, hwf, hwithin, -⟩ := hinv
    exact inv_of_running hc hwf hwithin rfl (Nat.zero_le _)
  · exact exec_keeps_inv (inv_advance hinv hrun ((fetchDecode_instr hc).mp hfetch)) hrun hexec
  · exact inv_stopUnrecognized hinv hfetch
  · exact inv_raiseOutOfBounds hinv (fetchDecode_outOfBounds_cause hc hfetch).1

/-- Settles O24: a fresh block is Running at `IP` 0; `State.reset` is one of 256 cells, none listed. -/
theorem constructionMeetsTheInvariant : Obligations.ConstructionMeetsTheInvariant := by
  have hconstruct : ∀ (c : Config) (image : Memory), c.wellFormed = true → Memory.wf image = true →
      Memory.within c.memSize image = true → (State.construct c image).Inv :=
    fun _ _ hc hwf hwithin => inv_of_running hc hwf hwithin rfl (Nat.zero_le _)
  exact ⟨hconstruct Config.reference [] rfl rfl rfl, hconstruct⟩

end Sys2Proof.Machine

namespace Sys2Proof.Machine

/-! ### Runs over a whole image (spec/20_memory.md R49, spec/43_control_sequencer.md R114, R117) -/

/-- An execute phase takes no cell's value away. -/
theorem exec_keeps_complete {i : Instr} {s t : State} {n : Nat} (h : exec i s = .next t)
    (hmem : Memory.complete n s.mem = true) : Memory.complete n t.mem = true := by
  obtain ⟨v, -, rfl⟩ | ⟨v, -, rfl⟩ | ⟨a, -, -, rfl⟩ | ⟨a, -, -, rfl⟩ | ⟨-, rfl⟩ | ⟨-, rfl⟩ := exec_next_cases h
  · exact hmem
  · exact hmem
  · exact Memory.complete_setCell _ _ hmem
  · exact hmem
  · exact hmem
  · exact hmem

theorem step_keeps_complete {s t : State} {n : Nat} (h : step s = .next t)
    (hmem : Memory.complete n s.mem = true) : Memory.complete n t.mem = true := by
  obtain ⟨-, ⟨-, rfl⟩ | ⟨-, ⟨i, -, hexec⟩ | ⟨b, -, rfl⟩ | ⟨a, -, rfl⟩⟩⟩ := step_cases h
  · exact hmem
  · exact exec_keeps_complete hexec hmem
  · exact hmem
  · exact hmem

/-- With a whole image a ready block's step answers a next state: its fetch reads no cell without a value. -/
theorem step_of_complete {s : State} (hready : s.Ready) (hmem : Memory.complete s.cfg.memSize s.mem = true) :
    ∃ t, step s = .next t := by
  match hfetch : fetchDecode s with
  | .ok (.instr i) =>
    obtain ⟨t, hexec, -⟩ := exec_cases i (s.advance i.length)
    exact ⟨t, (step_fetch_instr hready hfetch).trans hexec⟩
  | .ok (.unrecognized b) => exact ⟨_, step_fetch_unrecognized hready hfetch⟩
  | .error (.outOfBounds a) => exact ⟨_, step_fetch_outOfBounds hready hfetch⟩
  | .error (.unwritten a) =>
    obtain ⟨ha, hnone⟩ := fetchDecode_unwritten hfetch
    obtain ⟨b, hb⟩ := Memory.cellAt_of_complete hmem ha
    simp [hnone] at hb

/-- Settles O25: `step_of_complete`, and what the step keeps. -/
theorem wholeImageNeverStopsTheModel : Obligations.WholeImageNeverStopsTheModel := by
  intro s hready hmem
  obtain ⟨t, h⟩ := step_of_complete hready hmem
  obtain ⟨hcfg, -⟩ := step_keeps_cfg_rst h
  exact ⟨t, h, hcfg.symm ▸ step_keeps_complete h hmem, hcfg⟩

/-- A step that goes on has moved `IP` up, within memory: there is no jump back (R114). -/
theorem step_ip_lt_of_running {s t : State} (hready : s.Ready) (h : step s = .next t) (hrun : t.run = .running) :
    s.ip.toNat < t.ip.toNat ∧ t.ip.toNat ≤ s.cfg.memSize := by
  have ⟨hc, hr, _⟩ := hready
  obtain ⟨-, ⟨hrst, -⟩ | ⟨-, ⟨i, hfetch, hexec⟩ | ⟨b, -, rfl⟩ | ⟨a, -, rfl⟩⟩⟩ := step_cases h
  · simp [hr] at hrst
  · have hbytes := (fetchDecode_instr hc).mp hfetch
    rw [exec_keeps_ip_of_running hexec hrun, advance_ip_toNat hc hbytes]
    exact ⟨Nat.lt_add_of_pos_right (length_pos i), instr_inside hbytes⟩
  · simp at hrun
  · simp at hrun

/-- A run of a Running block begins with its step (R111). -/
theorem runLoop_succ {n : Nat} {s u : State} (hrun : s.run = .running) (h : step s = .next u) :
    runLoop (n + 1) s = runLoop n u := by
  rw [step] at h
  simp [runLoop, hrun, h, Run.stopped]

/-- A run that answers a state took each of its steps to a next state. -/
theorem runLoop_succ_next {n : Nat} {s t : State} (hrun : s.run = .running) (h : runLoop (n + 1) s = .next t) :
    ∃ u, step s = .next u ∧ runLoop n u = .next t := by
  match hstep : step s with
  | .next u => exact ⟨u, rfl, by rwa [runLoop_succ hrun hstep] at h⟩
  | .fault f =>
    rw [step] at hstep
    simp [runLoop, hrun, hstep, Run.stopped] at h
  | .refused r =>
    rw [step] at hstep
    simp [runLoop, hrun, hstep, Run.stopped] at h

/-- A run of more steps than there are cells from `IP` on ends stopped: each step that goes on uses up a cell. -/
theorem runLoop_stops {n : Nat} {s : State} (hready : s.Ready) (hmem : Memory.complete s.cfg.memSize s.mem = true)
    (hn : s.cfg.memSize - s.ip.toNat < n) : ∃ t, runLoop n s = .next t ∧ t.run.stopped = true := by
  induction n generalizing s with
  | zero => omega
  | succ n ih =>
    have ⟨hc, hr, hrunning⟩ := hready
    obtain ⟨u, h, humem, hcfg⟩ := wholeImageNeverStopsTheModel s hready hmem
    rw [runLoop_succ hrunning h]
    by_cases hrun : u.run = .running
    · obtain ⟨hlt, hle⟩ := step_ip_lt_of_running hready h hrun
      exact ih ⟨hcfg ▸ hc, (step_keeps_cfg_rst h).2.trans hr, hrun⟩ humem (by rw [hcfg]; omega)
    · exact ⟨u, runLoop_stopped (Run.stopped_iff.mpr hrun), Run.stopped_iff.mpr hrun⟩

/-- Settles O26: `runLoop_stops` at one step more than the cells from `IP` on. -/
theorem everyRunStops : Obligations.EveryRunStops :=
  fun _ hready hmem => runLoop_stops hready hmem (Nat.lt_succ_self _)

/-- What an execute phase of a Running block appends to the trace: OUT's event, or the closing one of RUN (R117). -/
theorem exec_trace {i : Instr} {s t : State} (hrun : s.run = .running) (h : exec i s = .next t) :
    ∃ vs : List Byte, t.trace = s.trace ++ vs.map .out ++ t.run.closing := by
  obtain ⟨v, -, rfl⟩ | ⟨v, -, rfl⟩ | ⟨a, -, -, rfl⟩ | ⟨a, -, -, rfl⟩ | ⟨-, rfl⟩ | ⟨-, rfl⟩ := exec_next_cases h
  · exact ⟨[], by simp [hrun, Run.closing]⟩
  · exact ⟨[], by simp [hrun, Run.closing]⟩
  · exact ⟨[], by simp [hrun, Run.closing]⟩
  · exact ⟨[], by simp [Run.closing]⟩
  · exact ⟨[s.acc], by simp [hrun, Run.closing]⟩
  · exact ⟨[], by simp [Run.closing]⟩

theorem step_trace {s t : State} (hr : s.rst = false) (h : step s = .next t) :
    ∃ vs : List Byte, t.trace = s.trace ++ vs.map .out ++ t.run.closing := by
  obtain ⟨-, ⟨hrst, -⟩ | ⟨⟨-, -, hrun⟩, ⟨i, -, hexec⟩ | ⟨b, -, rfl⟩ | ⟨a, -, rfl⟩⟩⟩ := step_cases h
  · simp [hr] at hrst
  · exact exec_trace (s := s.advance i.length) hrun hexec
  · exact ⟨[], by simp [Run.closing]⟩
  · exact ⟨[], by simp [Run.closing]⟩

/-- Settles O27, by induction on the steps: a step that goes on closes nothing, and one that stops is the last. -/
theorem traceOfARun : Obligations.TraceOfARun := by
  intro n s t hrun hr h
  induction n generalizing s with
  | zero =>
    cases h
    exact ⟨[], by simp [hrun, Run.closing]⟩
  | succ n ih =>
    obtain ⟨u, hstep, hloop⟩ := runLoop_succ_next hrun h
    obtain ⟨vs, hvs⟩ := step_trace hr hstep
    by_cases hurun : u.run = .running
    · obtain ⟨ws, hws⟩ := ih u hurun ((step_keeps_cfg_rst hstep).2.trans hr) hloop
      exact ⟨vs ++ ws, by simp [hws, hvs, hurun, Run.closing]⟩
    · obtain rfl : u = t :=
        Host.Outcome.next.inj ((runLoop_stopped (Run.stopped_iff.mpr hurun)).symm.trans hloop)
      exact ⟨vs, hvs⟩

end Sys2Proof.Machine

namespace Sys2Proof.Machine

/-! ### What no step reads (spec/10_state.md sections 1, 2, 4 and 6) -/

/-- A configuration out of range is refused before anything else is looked at (R9; log 4). -/
theorem step_outOfRange {s : State} (hc : s.cfg.wellFormed ≠ true) : step s = .refused .memorySizeOutOfRange := by
  simp [step, controlStep, hc]

/-- Execution reads nothing that `State.hideUnread` hides: ADD overwrites the flags and `OPR`, the others keep them. -/
theorem hideUnread_exec (i : Instr) (s : State) : hideUnread (exec i s.hideUnread) = hideUnread (exec i s) := by
  cases i with
  | loadImmediate v => rfl
  | addImmediate v => rfl
  | storeAccumulator a =>
    rcases Nat.lt_or_ge a.toNat s.cfg.memSize with h | h
    · rw [exec_storeAccumulator_inBounds h, exec_storeAccumulator_inBounds (s := s.hideUnread) h]
      rfl
    · rw [exec_storeAccumulator_outOfBounds h, exec_storeAccumulator_outOfBounds (s := s.hideUnread) h]
      rfl
  | output => rfl
  | halt => rfl

/-- The fetch reads `IP`, memory and MEM_SIZE alone (R65). -/
theorem fetchDecode_hideUnread (s : State) : fetchDecode s.hideUnread = fetchDecode s := rfl

theorem hideUnread_runInstruction (s : State) :
    hideUnread (runInstruction s.hideUnread) = hideUnread (runInstruction s) := by
  rw [runInstruction, runInstruction, fetchDecode_hideUnread]
  match fetchDecode s with
  | .ok (.instr i) => exact hideUnread_exec i (s.advance i.length)
  | .ok (.unrecognized b) => rfl
  | .error (.outOfBounds a) => rfl
  | .error (.unwritten a) => rfl

/-- Hiding before the step changes nothing that shows after it. -/
theorem hideUnread_step (s : State) : hideUnread (step s.hideUnread) = hideUnread (step s) := by
  by_cases hc : s.cfg.wellFormed = true
  · cases hr : s.rst with
    | true =>
      rw [step_reset hc hr, step_reset (s := s.hideUnread) hc hr]
      rfl
    | false =>
      by_cases hrun : s.run = .running
      · rw [step_ready ⟨hc, hr, hrun⟩, step_ready (s := s.hideUnread) ⟨hc, hr, hrun⟩]
        exact hideUnread_runInstruction s
      · rw [step_stopped hc hr hrun, step_stopped (s := s.hideUnread) hc hr hrun]
  · rw [step_outOfRange hc, step_outOfRange (s := s.hideUnread) hc]

/-- Settles O28: both states take the step of the one state with the unread parts hidden. -/
theorem oprAndFlagsAreNeverRead : Obligations.OprAndFlagsAreNeverRead := by
  intro s s' h
  rw [← hideUnread_step s, h, hideUnread_step s']

/-- The same state with the events `es` before its trace. -/
def State.prependTrace (es : List Event) (s : State) : State := { s with trace := es ++ s.trace }

/-- An event sent goes to the end of the trace, whatever is before it (R15). -/
theorem emit_prependTrace (es : List Event) (e : Event) (s : State) :
    (s.prependTrace es).emit e = (s.emit e).prependTrace es := by
  simp [State.prependTrace, State.emit]

theorem outputAccumulator_prependTrace (es : List Event) (s : State) :
    outputAccumulator (s.prependTrace es) = (outputAccumulator s).prependTrace es :=
  emit_prependTrace es _ s

theorem haltRun_prependTrace (es : List Event) (s : State) :
    haltRun (s.prependTrace es) = (haltRun s).prependTrace es :=
  congrArg (State.stop .halted) (emit_prependTrace es .haltMsg (s.setIp _))

theorem stopUnrecognized_prependTrace (es : List Event) (b : Byte) (s : State) :
    stopUnrecognized b (s.prependTrace es) = (stopUnrecognized b s).prependTrace es :=
  congrArg (State.stop (.unrecognized b)) (emit_prependTrace es (.unrecMsg b) (s.advance 1))

theorem exec_prependTrace (es : List Event) {i : Instr} {s t : State} (h : exec i s = .next t) :
    exec i (s.prependTrace es) = .next (t.prependTrace es) := by
  obtain ⟨v, rfl, rfl⟩ | ⟨v, rfl, rfl⟩ | ⟨a, rfl, ha, rfl⟩ | ⟨a, rfl, ha, rfl⟩ | ⟨rfl, rfl⟩ | ⟨rfl, rfl⟩ :=
    exec_next_cases h
  · rfl
  · rfl
  · exact exec_storeAccumulator_inBounds (s := s.prependTrace es) ha
  · exact exec_storeAccumulator_outOfBounds (s := s.prependTrace es) ha
  · exact congrArg _ (outputAccumulator_prependTrace es s)
  · exact congrArg _ (haltRun_prependTrace es s)

/-- Settles O29: the fetch does not see the trace, and what a step appends goes to its end. -/
theorem traceIsNeverRead : Obligations.TraceIsNeverRead := by
  intro es s t h
  change step (s.prependTrace es) = .next (t.prependTrace es)
  obtain ⟨hc, ⟨hr, rfl⟩ | ⟨hready, ⟨i, hfetch, hexec⟩ | ⟨b, hfetch, rfl⟩ | ⟨a, hfetch, rfl⟩⟩⟩ := step_cases h
  · exact step_reset (s := s.prependTrace es) hc hr
  · rw [step_fetch_instr (s := s.prependTrace es) hready hfetch]
    exact exec_prependTrace es hexec
  · rw [step_fetch_unrecognized (s := s.prependTrace es) hready hfetch, stopUnrecognized_prependTrace]
  · exact step_fetch_outOfBounds (s := s.prependTrace es) hready hfetch

end Sys2Proof.Machine

namespace Sys2Proof.Machine

/-! ### What is left open after a fault (spec/60_exceptions.md R135) -/

theorem endedFatally_iff {t : State} : t.endedFatally = true ↔ ∃ a n, t.run = .faulted a n := by
  cases h : t.run <;> simp [State.endedFatally, Run.ending, h]

/-- In a Faulted state only `IP` and the count of draws may differ. -/
theorem sameButFaultIp_of_faulted {u t : State} {a : Addr} {n : Nat} (ht : t.run = .faulted a n)
    (h : { u with ip := t.ip, draws := t.draws } = t) : u.sameButFaultIp t := by
  rwa [State.sameButFaultIp, if_pos (endedFatally_iff.mpr ⟨a, n, ht⟩)]

theorem sameButFaultIp_refl (t : State) : t.sameButFaultIp t := by
  unfold State.sameButFaultIp
  split <;> rfl

theorem sameButFaultIp_of_eq {u t : State} (h : u = t) : u.sameButFaultIp t := h ▸ sameButFaultIp_refl u

/-- In every other state nothing may differ. -/
theorem sameButFaultIp_iff_eq {u t : State} (ht : t.endedFatally = false) : u.sameButFaultIp t ↔ u = t := by
  simp [State.sameButFaultIp, ht]

/-- The same state with another count of draws. -/
def State.withDraws (d : Nat) (s : State) : State := { s with draws := d }

theorem exec_withDraws (d : Nat) {i : Instr} {s t : State} (h : exec i s = .next t) :
    ∃ u, exec i (s.withDraws d) = .next u ∧ (u.withDraws t.draws).sameButFaultIp t := by
  obtain ⟨v, rfl, rfl⟩ | ⟨v, rfl, rfl⟩ | ⟨a, rfl, ha, rfl⟩ | ⟨a, rfl, ha, rfl⟩ | ⟨rfl, rfl⟩ | ⟨rfl, rfl⟩ :=
    exec_next_cases h
  · exact ⟨_, rfl, sameButFaultIp_refl _⟩
  · exact ⟨_, rfl, sameButFaultIp_refl _⟩
  · exact ⟨_, exec_storeAccumulator_inBounds (s := s.withDraws d) ha, sameButFaultIp_refl _⟩
  · exact ⟨_, exec_storeAccumulator_outOfBounds (s := s.withDraws d) ha, sameButFaultIp_of_faulted rfl rfl⟩
  · exact ⟨_, rfl, sameButFaultIp_refl _⟩
  · exact ⟨_, rfl, sameButFaultIp_refl _⟩

/-- Settles O30: only `raiseOutOfBounds` reads the count of draws, and it leaves a Faulted state. -/
theorem onlyTheFaultIpIsOpen : Obligations.OnlyTheFaultIpIsOpen := by
  intro d s t h
  change ∃ u, step (s.withDraws d) = .next u ∧ (u.withDraws t.draws).sameButFaultIp t
  obtain ⟨hc, ⟨hr, rfl⟩ | ⟨hready, ⟨i, hfetch, hexec⟩ | ⟨b, hfetch, rfl⟩ | ⟨a, hfetch, rfl⟩⟩⟩ := step_cases h
  · exact ⟨_, step_reset (s := s.withDraws d) hc hr, sameButFaultIp_refl _⟩
  · rw [step_fetch_instr (s := s.withDraws d) hready hfetch]
    exact exec_withDraws d hexec
  · exact ⟨_, step_fetch_unrecognized (s := s.withDraws d) hready hfetch, sameButFaultIp_refl _⟩
  · exact ⟨_, step_fetch_outOfBounds (s := s.withDraws d) hready hfetch, sameButFaultIp_of_faulted rfl rfl⟩

end Sys2Proof.Machine

namespace Sys2Proof.Machine

/-! ### Reset, construction and the block that does not work (spec/70_reset_and_hazards.md section 1) -/

/-- The strobes come with a fetched opcode byte alone (R33). -/
theorem strobes_of_not_fetched {c : CycleState} (h : c.fetched = none) :
    c.ports.outValid = false ∧ c.ports.haltMsg = false ∧ c.ports.unrecValid = false := by
  simp [CycleState.ports, CycleState.badOpcode, h]

/-- In a cycle in which the sequencer does not work there is no access and no strobe (R116, R151). -/
theorem ports_of_inactive {c : CycleState} (h : c.active = false) :
    c.ports.memRe = false ∧ c.ports.memWe = false ∧ c.ports.outValid = false ∧ c.ports.haltMsg = false ∧
      c.ports.unrecValid = false := by
  have hrequest : c.request = .idle := by simp [CycleState.request, h]
  have hfetched : c.fetched = none := by simp [CycleState.fetched, h]
  refine ⟨?_, ?_, strobes_of_not_fetched hfetched⟩
  · simp [CycleState.ports, CycleState.memRe, hrequest]
  · simp [CycleState.ports, CycleState.memWe, hrequest]

theorem active_of_rst {c : CycleState} (h : c.arch.rst = true) : c.active = false := by
  simp [CycleState.active, h]

theorem active_of_stopped {c : CycleState} (h : c.arch.run ≠ .running) : c.active = false := by
  simp [CycleState.active, Run.stopped_iff.mpr h]

/-- No number of cycles changes a stopped block (R112, R116). -/
theorem ticks_stopped {c : CycleState} (hc : c.arch.cfg.wellFormed = true) (hr : c.arch.rst = false)
    (hs : c.arch.run.stopped = true) (n : Nat) : ticks n c = .next c := by
  induction n with
  | zero => rfl
  | succ n ih => rwa [ticks, tick_stopped hc hr hs]

/-- Settles O20: the step is refused, the cycles change nothing, and the sequencer does not work. -/
theorem stoppedIsFinalUntilReset : Obligations.StoppedIsFinalUntilReset :=
  fun _ hc hr hs => ⟨step_stopped hc hr hs, fun _ n =>
    ⟨ticks_stopped hc hr (Run.stopped_iff.mpr hs) n, ports_of_inactive (active_of_stopped hs)⟩⟩

/-- Settles O31: the next state is `applyReset s`, which holds `rst` as it was, so no strobe follows either. -/
theorem resetRestoresTheInitialState : Obligations.ResetRestoresTheInitialState := by
  intro s hc hr
  refine ⟨applyReset s, step_reset hc hr, rfl, step_reset (s := applyReset s) hc hr, rfl, fun p => ?_⟩
  obtain ⟨-, -, hstrobes⟩ := ports_of_inactive (active_of_rst (c := ⟨applyReset s, p⟩) hr)
  exact hstrobes

/-- Settles O32: construction says each field, and a fresh block is at FETCH with `IP` 0. -/
theorem firstFetchIsAtZero : Obligations.FirstFetchIsAtZero :=
  fun _ _ => ⟨_, rfl, rfl, rfl, rfl, rfl, rfl, rfl, rfl, rfl, rfl⟩

/-- Running an instruction ends in a next state or a fault: every instruction has a meaning. -/
theorem runInstruction_ne_refused (s : State) (r : Refusal) : runInstruction s ≠ .refused r := by
  rw [runInstruction]
  match fetchDecode s with
  | .ok (.instr i) =>
    obtain ⟨t, hexec, -⟩ := exec_cases i (s.advance i.length)
    simp [hexec]
  | .ok (.unrecognized b) => simp
  | .error (.outOfBounds a) => simp [raise]
  | .error (.unwritten a) => simp [raise]

/-- A step in a configuration in range is not refused for the size of memory (R9). -/
theorem step_ne_memorySizeOutOfRange {s : State} (hc : s.cfg.wellFormed = true) :
    step s ≠ .refused .memorySizeOutOfRange := by
  cases hr : s.rst with
  | true => simp [step_reset hc hr]
  | false =>
    by_cases hrun : s.run = .running
    · rw [step_ready ⟨hc, hr, hrun⟩]
      exact runInstruction_ne_refused s _
    · simp [step_stopped hc hr hrun]

/-- Settles O33: a size out of range is exactly an ill-formed configuration. -/
theorem memorySizeIsChecked : Obligations.MemorySizeIsChecked := by
  refine ⟨rfl, fun s => ?_⟩
  have hsize : (s.cfg.memSize < 1 ∨ 65535 < s.cfg.memSize) ↔ s.cfg.wellFormed ≠ true := by
    simp only [Config.wellFormed, ne_eq, Bool.and_eq_true, decide_eq_true_eq]
    omega
  exact hsize.trans ⟨step_outOfRange, fun h hc => step_ne_memorySizeOutOfRange hc h⟩

end Sys2Proof.Machine

namespace Sys2Proof.Machine

/-! ### The host (spec/70_reset_and_hazards.md section 2, spec/60_exceptions.md R130) -/

/-- Settles O35: the host's accesses ask first whether the run has stopped. -/
theorem hostWaitsForTheStop : Obligations.HostWaitsForTheStop := by
  intro s a v ha hr
  refine ⟨fun hrun => ?_, fun hrun hcell => ?_⟩
  · have hbusy : hostMayAccess s = false := by simp [hostMayAccess, hr, hrun, Run.stopped]
    simp [hostWrite, hostRead, ha, hbusy]
  · have hfree : hostMayAccess s = true := by simp [hostMayAccess, Run.stopped_iff.mpr hrun]
    simp [hostRead, ha, hfree, hcell]

/-- Settles O36: the four values of RUN have four codes, and two of them a record. -/
theorem stopReasonCodes : Obligations.StopReasonCodes := by
  intro s
  cases h : s.run with
  | running => simp [stopReason]
  | halted => simp [stopReason]
  | unrecognized b => simp [stopReason, unrecOpcodePort, h]
  | faulted a n => simp [stopReason, faultAddrPort, h]

/-- Placing bytes leaves the cells before and after them as they were (R40). -/
theorem Memory.cellAt_placeBytes_outside {n : Nat} {bs : List Byte} {a b : Nat} (m : Memory)
    (hb : b < a ∨ a + bs.length ≤ b) : Memory.cellAt (placeBytes n bs a m) b = Memory.cellAt m b := by
  induction bs generalizing a m with
  | nil => rfl
  | cons c bs ih =>
    rw [List.length_cons] at hb
    rw [placeBytes, ih _ (by omega)]
    split
    · exact Memory.cellAt_setCell_other m c (by omega)
    · rfl

/-- Placed bytes that fit into memory are held there. -/
theorem holdsBytes_placeBytes {s : State} {bs : List Byte} {a : Nat} {m : Memory}
    (hm : s.mem = placeBytes s.cfg.memSize bs a m) (hfit : a + bs.length ≤ s.cfg.memSize) :
    s.holdsBytes bs a = true := by
  induction bs generalizing a m with
  | nil => rfl
  | cons b bs ih =>
    rw [List.length_cons] at hfit
    have ha : a < s.cfg.memSize := by omega
    rw [placeBytes, if_pos ha] at hm
    have hcell : Memory.cellAt s.mem a = some b := by
      rw [hm, Memory.cellAt_placeBytes_outside _ (.inl (Nat.lt_succ_self a)), Memory.cellAt_setCell_self]
    simp [State.holdsBytes, ha, hcell, ih hm (by omega)]

/-- A program the host may write and that fits is placed from its address on (R153). -/
theorem hostLoad_eq_placeBytes {s : State} {bs : List Byte} {a : Addr} (hc : s.cfg.wellFormed = true)
    (hmay : hostMayAccess s = true) (hfit : a.toNat + bs.length ≤ s.cfg.memSize) :
    hostLoad bs a s = .next (s.setMem (placeBytes s.cfg.memSize bs a.toNat s.mem)) := by
  induction bs generalizing a s with
  | nil => rfl
  | cons b bs ih =>
    rw [List.length_cons] at hfit
    have ha : a.toNat < s.cfg.memSize := by omega
    have hnext : (a + 1).toNat = a.toNat + 1 := by
      simp only [Config.wellFormed, Bool.and_eq_true, decide_eq_true_eq] at hc
      rw [BitVec.toNat_add]
      change (a.toNat + 1) % 65536 = _
      omega
    have hwrite : hostWrite a b s = .next (s.setMem (Memory.setCell s.mem a.toNat b)) := by
      simp [hostWrite, ha, hmay]
    simp only [hostLoad, hwrite, placeBytes, if_pos ha, ← hnext]
    exact ih hc hmay (by rw [hnext]; exact Nat.add_right_comm .. ▸ hfit)

/-- Settles O34: under reset the host may write, and releasing `rst` leaves memory as loaded. -/
theorem bootPlacesTheProgram : Obligations.BootPlacesTheProgram := by
  intro s bs hc hfit
  have hload := hostLoad_eq_placeBytes (s := applyReset (assertReset s)) (bs := bs) (a := 0) hc rfl
    ((Nat.zero_add _).symm ▸ hfit)
  refine ⟨_, _, step_reset (s := assertReset s) hc rfl, hload, ⟨hc, rfl, rfl⟩, rfl, ?_, fun b hb => ?_⟩
  · exact holdsBytes_placeBytes rfl ((Nat.zero_add _).symm ▸ hfit)
  · exact Memory.cellAt_placeBytes_outside _ (.inr ((Nat.zero_add _).symm ▸ hb))

end Sys2Proof.Machine

namespace Sys2Proof.Machine

/-! ### The ports of a cycle (spec/10_state.md section 7) -/

theorem active_of_ready {c : CycleState} (h : c.arch.Ready) : c.active = true := by
  obtain ⟨-, hr, hrun⟩ := h
  simp [CycleState.active, hr, hrun, Run.stopped]

/-- A FETCH cycle of a ready block shows the byte at `IP`, if memory answers (R119). -/
theorem fetched_of_ready {s : State} (h : s.Ready) :
    (CycleState.mk s .fetch).fetched = (memRead s s.ip).toOption := by
  simp [CycleState.fetched, active_of_ready (c := ⟨s, .fetch⟩) h]

theorem fetched_of_ne_fetch {c : CycleState} (h : c.phase ≠ .fetch) : c.fetched = none := by
  unfold CycleState.fetched
  split
  · cases hp : c.phase <;> simp_all
  · rfl

/-- Every cycle of a ready block but STORE reads at `IP` (R119). -/
theorem request_of_reading {c : CycleState} (h : c.arch.Ready) (hphase : ∀ hi lo, c.phase ≠ .store hi lo) :
    c.request = .read c.arch.ip := by
  simp only [CycleState.request, if_pos (active_of_ready h)]
  split
  · rfl
  · rfl
  · rfl
  · next hi lo hp => exact absurd hp (hphase hi lo)

/-- STORE writes ACC at the latched address (R119). -/
theorem request_store {s : State} (h : s.Ready) (hi lo : Byte) :
    (CycleState.mk s (.store hi lo)).request = .write (assembleAddress hi lo) s.acc := by
  simp [CycleState.request, active_of_ready (c := ⟨s, .store hi lo⟩) h, accumulator]

/-- What a cycle can ask of memory: nothing, a read at `IP`, or in STORE a write of ACC. -/
theorem request_cases (c : CycleState) :
    c.request = .idle ∨ c.request = .read c.arch.ip ∨
      ∃ hi lo, c.phase = .store hi lo ∧ c.request = .write (assembleAddress hi lo) c.arch.acc := by
  unfold CycleState.request
  split
  · cases hp : c.phase with
    | fetch => exact .inr (.inl rfl)
    | opnd1 op => exact .inr (.inl rfl)
    | opnd2 hi => exact .inr (.inl rfl)
    | store hi lo => exact .inr (.inr ⟨hi, lo, rfl, rfl⟩)
  · exact .inl rfl

/-! The memory port for each request. -/

theorem ports_of_idle {c : CycleState} (h : c.request = .idle) :
    c.ports.memRe = false ∧ c.ports.memWe = false := by
  simp [CycleState.ports, CycleState.memRe, CycleState.memWe, h]

theorem ports_of_read {c : CycleState} {a : Addr} (h : c.request = .read a) :
    c.ports.memRe = true ∧ c.ports.memWe = false ∧ c.ports.memAddr = a := by
  simp [CycleState.ports, CycleState.memRe, CycleState.memWe, CycleState.memAddr, h]

theorem ports_of_write {c : CycleState} {a : Addr} {v : Byte} (h : c.request = .write a v) :
    c.ports.memRe = false ∧ c.ports.memWe = true ∧ c.ports.memAddr = a ∧ c.ports.memWdata = v := by
  simp [CycleState.ports, CycleState.memRe, CycleState.memWe, CycleState.memAddr, CycleState.memWdata, h]

theorem memOob_iff {c : CycleState} :
    c.ports.memOob = true ↔ c.arch.cfg.memSize ≤ c.ports.memAddr.toNat := decide_eq_true_iff

/-! Each strobe shows an opcode byte. -/

theorem outValid_iff {c : CycleState} : c.ports.outValid = true ↔ c.fetched = some Opcode.out.byte := by
  simp [CycleState.ports]

theorem haltMsg_iff {c : CycleState} : c.ports.haltMsg = true ↔ c.fetched = some Opcode.hlt.byte := by
  simp [CycleState.ports]

theorem unrecValid_of_opcode {c : CycleState} {o : Opcode} (h : c.fetched = some o.byte) :
    c.ports.unrecValid = false := by
  simp [CycleState.ports, CycleState.badOpcode, h]

theorem outData_of_outValid {c : CycleState} (h : c.ports.outValid = true) : c.ports.outData = c.arch.acc := by
  simp [CycleState.ports, outValid_iff.mp h, accumulator]

/-- Settles O42: the memory port by `request_cases`; the strobes by the one opcode byte that a cycle fetches. -/
theorem portsOfACycle : Obligations.PortsOfACycle := by
  intro c
  have hmem : ¬ (c.ports.memRe = true ∧ c.ports.memWe = true) ∧
      (c.ports.memWe = true → c.ports.memWdata = c.arch.acc) ∧
      (c.ports.memRe = true → c.ports.memAddr = c.arch.ip) := by
    obtain h | h | ⟨hi, lo, -, h⟩ := request_cases c
    · simp [ports_of_idle h]
    · simp [ports_of_read h]
    · simp [ports_of_write h]
  obtain ⟨hexcl, hwdata, haddr⟩ := hmem
  refine ⟨hexcl, hwdata, haddr, memOob_iff, ?_, ?_, ?_, outData_of_outValid⟩
  · rintro ⟨hout, hhalt⟩
    have hbyte : Opcode.out.byte = Opcode.hlt.byte :=
      Option.some.inj ((outValid_iff.mp hout).symm.trans (haltMsg_iff.mp hhalt))
    exact absurd hbyte (by decide)
  · rintro ⟨hout, hunrec⟩
    simp [unrecValid_of_opcode (outValid_iff.mp hout)] at hunrec
  · rintro ⟨hhalt, hunrec⟩
    simp [unrecValid_of_opcode (haltMsg_iff.mp hhalt)] at hunrec

/-- Settles O4: the fetched OUT is `outputAccumulator` at the advanced `IP`, and FETCH shows its opcode byte. -/
theorem outEmitsTheAccumulator : Obligations.OutEmitsTheAccumulator := by
  intro s
  refine ⟨rfl, rfl, fun hready hbytes => ?_, fetchRaises .output s⟩
  have hread : memRead s s.ip = .ok Opcode.out.byte :=
    memRead_eq_ok.mpr (by simpa [State.holdsBytes, Opcode.byte] using hbytes)
  have hfetched : (CycleState.mk s .fetch).fetched = some Opcode.out.byte := by
    rw [fetched_of_ready hready, hread]
    rfl
  exact ⟨step_eq_exec_of_holdsBytes (i := .output) hready hbytes, outValid_iff.mpr hfetched,
    outData_of_outValid (outValid_iff.mpr hfetched)⟩

end Sys2Proof.Machine

namespace Sys2Proof.Machine

/-! ### One clock cycle (spec/43_control_sequencer.md R119) -/

/-- A cycle ends with what its access answers, or with the fault of that access. -/
theorem endCycle_map_cases {α : Type} {s : State} {r : Except AccessError α} {f : α → CycleState} {d : CycleState}
    (h : endCycle s (r.map f) = .next d) :
    (∃ b, r = .ok b ∧ d = f b) ∨ ∃ a, r = .error (.outOfBounds a) ∧ d = cycleFault a s := by
  match r with
  | .ok b => exact .inl ⟨b, rfl, (Host.Outcome.next.inj h).symm⟩
  | .error (.outOfBounds a) => exact .inr ⟨a, rfl, (Host.Outcome.next.inj h).symm⟩
  | .error (.unwritten a) => cases h

/-- The write of STORE changes no trace. -/
theorem memWrite_trace {s t : State} {a : Addr} {v : Byte} (h : memWrite s a v = .ok t) : t.trace = s.trace := by
  unfold memWrite at h
  split at h
  · cases h
    rfl
  · cases h

/-- No cycle but FETCH sends an event. -/
theorem activeCycle_keeps_trace {c d : CycleState} (hphase : c.phase ≠ .fetch) (h : activeCycle c = .next d) :
    d.arch.trace = c.arch.trace := by
  unfold activeCycle at h
  split at h
  · next hp => exact absurd hp hphase
  · next op _ =>
    obtain ⟨b, -, rfl⟩ | ⟨a, -, rfl⟩ := endCycle_map_cases h
    · cases op <;> rfl
    · rfl
  · obtain ⟨b, -, rfl⟩ | ⟨a, -, rfl⟩ := endCycle_map_cases h
    · rfl
    · rfl
  · obtain ⟨t, ht, rfl⟩ | ⟨a, -, rfl⟩ := endCycle_map_cases h
    · exact memWrite_trace ht
    · rfl

/-- A FETCH answered by the byte `op` sends the event of that byte, if it has one (R100, R101, R131). -/
theorem fetchCycle_trace (op : Byte) (s : State) :
    (fetchCycle op s).arch.trace = s.trace ++
      (if op = Opcode.out.byte then [.out s.acc] else []) ++
      (if op = Opcode.hlt.byte then [.haltMsg] else []) ++
      (if opcodeOf op = none then [.unrecMsg op] else []) := by
  match ho : opcodeOf op with
  | some o =>
    obtain rfl := opcodeOf_eq_some.mp ho
    cases o <;> simp [fetchCycle, Opcode.byte, opcodeOf]
  | none =>
    have hout : op ≠ Opcode.out.byte := by rintro rfl; simp at ho
    have hhlt : op ≠ Opcode.hlt.byte := by rintro rfl; simp at ho
    simp [fetchCycle, ho, hout, hhlt]

/-- The event that each strobe of a cycle shows is that of the fetched byte (R33). -/
theorem strobes_of_fetched {c : CycleState} {op : Byte} (h : c.fetched = some op) :
    (if c.ports.outValid = true then [Event.out c.ports.outData] else []) =
        (if op = Opcode.out.byte then [.out c.arch.acc] else []) ∧
      (if c.ports.haltMsg = true then [Event.haltMsg] else []) =
        (if op = Opcode.hlt.byte then [.haltMsg] else []) ∧
      (if c.ports.unrecValid = true then [Event.unrecMsg c.ports.unrecOpcode] else []) =
        (if opcodeOf op = none then [.unrecMsg op] else []) := by
  refine ⟨?_, ?_, ?_⟩
  · by_cases hop : op = Opcode.out.byte
    · simp [CycleState.ports, h, hop, accumulator]
    · simp [CycleState.ports, h, hop]
  · simp [CycleState.ports, h]
  · by_cases hop : opcodeOf op = none
    · simp [CycleState.ports, CycleState.badOpcode, Option.filter, h, hop]
    · simp [CycleState.ports, CycleState.badOpcode, Option.filter, h, hop]

/-- Settles O43: in FETCH the strobes are those of the byte that memory answers, and no other cycle has any. -/
theorem strobesAreTheEvents : Obligations.StrobesAreTheEvents := by
  intro c d hready h
  rw [tick_ready hready] at h
  by_cases hphase : c.phase = .fetch
  · obtain ⟨s, p⟩ := c
    subst hphase
    have hfetched := fetched_of_ready hready
    obtain ⟨op, hread, rfl⟩ | ⟨a, hread, rfl⟩ := endCycle_map_cases h
    · rw [hread, Except.toOption] at hfetched
      obtain ⟨hout, hhalt, hunrec⟩ := strobes_of_fetched hfetched
      rw [hout, hhalt, hunrec]
      exact fetchCycle_trace op s
    · rw [hread, Except.toOption] at hfetched
      simp [strobes_of_not_fetched hfetched, cycleFault]
  · rw [activeCycle_keeps_trace hphase h]
    simp [strobes_of_not_fetched (fetched_of_ne_fetch hphase)]

end Sys2Proof.Machine

namespace Sys2Proof.Machine

/-! ### The cycles of one instruction (spec/43_control_sequencer.md R119) -/

/-- The phase of the sequencer after `k` cycles of instruction `i`, with what it has latched: the bytes before `k`.
It is read for `k < cyclesOf i` only. -/
def phaseAfter : Instr → Nat → Phase
  | _, 0 => .fetch
  | .loadImmediate _, _ => .opnd1 .lda
  | .addImmediate _, _ => .opnd1 .add
  | .storeAccumulator _, 1 => .opnd1 .sta
  | .storeAccumulator a, 2 => .opnd2 (addressHigh a)
  | .storeAccumulator a, _ => .store (addressHigh a) (addressLow a)
  | .output, _ => .fetch
  | .halt, _ => .fetch

/-- The sequencer after `k` such cycles, begun at FETCH in `s`. -/
def cycleAfter (i : Instr) (s : State) (k : Nat) : CycleState := ⟨s.advance k, phaseAfter i k⟩

theorem cycleAfter_zero (i : Instr) (s : State) : cycleAfter i s 0 = ⟨s, .fetch⟩ := by
  cases i <;> simp [cycleAfter, phaseAfter, State.advance, State.setIp]

theorem cyclesOf_bounds (i : Instr) : 1 ≤ cyclesOf i ∧ cyclesOf i ≤ 4 := by
  cases i <;> simp [cyclesOf]

/-- An instruction takes a cycle for each of its bytes, and STA one more, for the store. -/
theorem length_le_cyclesOf (i : Instr) : i.length ≤ cyclesOf i := by
  cases i <;> simp [Instr.length, Instr.opcode, Opcode.operandBytes, cyclesOf]

/-- The cycles that are not the last of their instruction: one of LDA, one of ADD, three of STA. -/
theorem not_last_cycle_cases {i : Instr} {k : Nat} (hk : k + 1 < cyclesOf i) :
    (∃ v, i = .loadImmediate v ∧ k = 0) ∨ (∃ v, i = .addImmediate v ∧ k = 0) ∨
      ∃ a, i = .storeAccumulator a ∧ (k = 0 ∨ k = 1 ∨ k = 2) := by
  cases i with
  | loadImmediate v => exact .inl ⟨v, rfl, Nat.lt_one_iff.mp (Nat.lt_of_succ_lt_succ hk)⟩
  | addImmediate v => exact .inr (.inl ⟨v, rfl, Nat.lt_one_iff.mp (Nat.lt_of_succ_lt_succ hk)⟩)
  | storeAccumulator a =>
    rw [cyclesOf] at hk
    exact .inr (.inr ⟨a, rfl, by omega⟩)
  | output => exact absurd (Nat.lt_of_succ_lt_succ hk) (Nat.not_lt_zero k)
  | halt => exact absurd (Nat.lt_of_succ_lt_succ hk) (Nat.not_lt_zero k)

theorem not_last_cycle_lt_length {i : Instr} {k : Nat} (hk : k + 1 < cyclesOf i) : k < i.length := by
  obtain ⟨v, rfl, rfl⟩ | ⟨v, rfl, rfl⟩ | ⟨a, rfl, rfl | rfl | rfl⟩ := not_last_cycle_cases hk <;>
    simp [Instr.length, Instr.opcode, Opcode.operandBytes]

theorem phaseAfter_succ_ne_fetch {i : Instr} {k : Nat} (hk : k + 1 < cyclesOf i) :
    phaseAfter i (k + 1) ≠ .fetch := by
  obtain ⟨v, rfl, rfl⟩ | ⟨v, rfl, rfl⟩ | ⟨a, rfl, rfl | rfl | rfl⟩ := not_last_cycle_cases hk <;>
    simp [phaseAfter]

/-- As long as bytes of the instruction are left, the sequencer has not come to STORE. -/
theorem phaseAfter_ne_store {i : Instr} {k : Nat} (hk : k < i.length) (hi lo : Byte) :
    phaseAfter i k ≠ .store hi lo := by
  match k with
  | 0 => cases i <;> simp [phaseAfter]
  | 1 => cases i <;> simp [phaseAfter]
  | 2 => cases i <;> simp_all [phaseAfter, Instr.length, Instr.opcode, Opcode.operandBytes]
  | k + 3 => exact absurd (length_le_three i) (by omega)

/-! The four rows of R119, each once its access is answered. -/

theorem activeCycle_fetch {s : State} {b : Byte} (h : memRead s s.ip = .ok b) :
    activeCycle ⟨s, .fetch⟩ = .next (fetchCycle b s) := by
  simp [activeCycle, h, Except.map, endCycle]

theorem activeCycle_opnd1 {s : State} {b : Byte} (op : OperandOpcode) (h : memRead s s.ip = .ok b) :
    activeCycle ⟨s, .opnd1 op⟩ = .next (opnd1Cycle op b s) := by
  simp [activeCycle, h, Except.map, endCycle]

theorem activeCycle_opnd2 {s : State} {b : Byte} (hi : Byte) (h : memRead s s.ip = .ok b) :
    activeCycle ⟨s, .opnd2 hi⟩ = .next ⟨s.advance 1, .store hi b⟩ := by
  simp [activeCycle, h, Except.map, endCycle]

theorem activeCycle_store_inBounds {s : State} {hi lo : Byte} {a : Addr} (ha : assembleAddress hi lo = a)
    (h : a.toNat < s.cfg.memSize) :
    activeCycle ⟨s, .store hi lo⟩ = .next ⟨s.setMem (Memory.setCell s.mem a.toNat s.acc), .fetch⟩ := by
  simp [activeCycle, effectiveAddress, accumulator, ha, memWrite_inBounds _ h, Except.map, endCycle]

theorem activeCycle_store_outOfBounds {s : State} {hi lo : Byte} {a : Addr} (ha : assembleAddress hi lo = a)
    (h : s.cfg.memSize ≤ a.toNat) : activeCycle ⟨s, .store hi lo⟩ = .next (cycleFault a s) := by
  simp [activeCycle, effectiveAddress, accumulator, ha, memWrite_outOfBounds _ h, Except.map, endCycle]

theorem activeCycle_readFault {c : CycleState} {a : Addr} (hphase : ∀ hi lo, c.phase ≠ .store hi lo)
    (h : memRead c.arch c.arch.ip = .error (.outOfBounds a)) : activeCycle c = .next (cycleFault a c.arch) := by
  cases hp : c.phase with
  | fetch => simp [activeCycle, hp, h, Except.map, endCycle]
  | opnd1 op => simp [activeCycle, hp, h, Except.map, endCycle]
  | opnd2 hi => simp [activeCycle, hp, h, Except.map, endCycle]
  | store hi lo => exact absurd hp (hphase hi lo)

/-- A cycle that is not the instruction's last latches the byte it reads and advances `IP`. -/
theorem tick_cycleAfter {i : Instr} {s : State} {k : Nat} {b : Byte} (hready : s.Ready) (hk : k + 1 < cyclesOf i)
    (hb : (encode i)[k]? = some b) (hread : memRead s (s.ip + BitVec.ofNat 16 k) = .ok b) :
    tick (cycleAfter i s k) = .next (cycleAfter i s (k + 1)) := by
  rw [tick_ready (c := cycleAfter i s k) hready, cycleAfter, cycleAfter, ← advance_advance]
  have hread : memRead (s.advance k) (s.advance k).ip = .ok b := hread
  obtain ⟨v, rfl, rfl⟩ | ⟨v, rfl, rfl⟩ | ⟨a, rfl, rfl | rfl | rfl⟩ := not_last_cycle_cases hk
  · obtain rfl := Option.some.inj hb
    exact activeCycle_fetch hread
  · obtain rfl := Option.some.inj hb
    exact activeCycle_fetch hread
  · obtain rfl := Option.some.inj hb
    exact activeCycle_fetch hread
  · obtain rfl := Option.some.inj hb
    exact activeCycle_opnd1 .sta hread
  · obtain rfl := Option.some.inj hb
    exact activeCycle_opnd2 _ hread

/-- Part of a held instruction is held. -/
theorem holdsBytes_take {s : State} {bs : List Byte} {a : Nat} (n : Nat) (h : s.holdsBytes bs a = true) :
    s.holdsBytes (bs.take n) a = true := by
  rw [holdsBytes_iff] at h ⊢
  intro k b hb
  rw [List.getElem?_take, Option.ite_none_right_eq_some] at hb
  exact h k b hb.2

/-- The bytes of an instruction held from `IP` on are the ones its cycles read. -/
theorem memRead_of_holdsBytes {s : State} {i : Instr} {k : Nat} (hc : s.cfg.wellFormed = true) (hk : k < i.length)
    (h : s.holdsBytes ((encode i).take (k + 1)) s.ip.toNat = true) :
    ∃ b, (encode i)[k]? = some b ∧ memRead s (s.ip + BitVec.ofNat 16 k) = .ok b := by
  have hlen : k < (encode i).length := by rwa [encode_length]
  have h3 : ((encode i).take (k + 1)).length ≤ 3 :=
    (List.length_take_le _ _).trans (hk.trans_le (length_le_three i))
  refine ⟨(encode i)[k], List.getElem?_eq_getElem hlen, (readsAs_memory hc h3).mpr h k _ ?_⟩
  rw [List.getElem?_take_of_succ, List.getElem?_eq_getElem hlen]

theorem ticks_one (c : CycleState) : ticks 1 c = tick c := by
  rw [ticks]
  cases tick c <;> rfl

/-- An instruction of which the first `k` bytes are held runs its first `k` cycles, but for the last of all. -/
theorem ticks_cycleAfter {i : Instr} {s : State} {k : Nat} (hready : s.Ready) (hk : k < cyclesOf i)
    (h : s.holdsBytes ((encode i).take k) s.ip.toNat = true) :
    ticks k ⟨s, .fetch⟩ = .next (cycleAfter i s k) := by
  induction k with
  | zero => rw [cycleAfter_zero, ticks]
  | succ k ih =>
    have hprev : s.holdsBytes ((encode i).take k) s.ip.toNat = true := by
      simpa [List.take_take] using holdsBytes_take k h
    have hbyte : k < i.length := not_last_cycle_lt_length hk
    obtain ⟨b, hb, hread⟩ := memRead_of_holdsBytes hready.1 hbyte h
    rw [ticks_add (ih (Nat.lt_of_succ_lt hk) hprev), ticks_one, tick_cycleAfter hready hk hb hread]

theorem ticks_cycleAfter_of_holdsBytes {i : Instr} {s : State} {k : Nat} (hready : s.Ready) (hk : k < cyclesOf i)
    (h : s.holdsBytes (encode i) s.ip.toNat = true) : ticks k ⟨s, .fetch⟩ = .next (cycleAfter i s k) :=
  ticks_cycleAfter hready hk (holdsBytes_take k h)

/-- The byte of a held instruction that the cycle at its place reads. -/
theorem memRead_advance_of_holdsBytes {i : Instr} {s : State} {k : Nat} {b : Byte} (hc : s.cfg.wellFormed = true)
    (h : s.holdsBytes (encode i) s.ip.toNat = true) (hb : (encode i)[k]? = some b) :
    memRead (s.advance k) (s.advance k).ip = .ok b :=
  (readsAs_memory hc (by rw [encode_length]; exact length_le_three i)).mpr h k b hb

/-- The last cycle of a held instruction leaves what its execute phase leaves, but for `IP` after a fault of STA. -/
theorem tick_last_cycle {i : Instr} {s t : State} (hready : s.Ready)
    (hbytes : s.holdsBytes (encode i) s.ip.toNat = true) (h : exec i (s.advance i.length) = .next t) :
    ∃ u, tick (cycleAfter i s (cyclesOf i - 1)) = .next ⟨u, .fetch⟩ ∧ u.sameButFaultIp t := by
  have hbyte {k : Nat} {b : Byte} := memRead_advance_of_holdsBytes (k := k) (b := b) hready.1 hbytes
  rw [tick_ready (c := cycleAfter i s _) hready]
  obtain ⟨v, rfl, rfl⟩ | ⟨v, rfl, rfl⟩ | ⟨a, rfl, ha, rfl⟩ | ⟨a, rfl, ha, rfl⟩ | ⟨rfl, rfl⟩ | ⟨rfl, rfl⟩ :=
    exec_next_cases h
  · exact ⟨_, activeCycle_opnd1 .lda (hbyte rfl),
      sameButFaultIp_of_eq (congrArg (loadAccumulator v) (advance_advance 1 1 s))⟩
  · exact ⟨_, activeCycle_opnd1 .add (hbyte rfl),
      sameButFaultIp_of_eq (congrArg (addAccumulator v) (advance_advance 1 1 s))⟩
  · exact ⟨_, activeCycle_store_inBounds (assembleAddress_bytes a) ha, sameButFaultIp_refl _⟩
  · exact ⟨_, activeCycle_store_outOfBounds (assembleAddress_bytes a) ha, sameButFaultIp_of_faulted rfl rfl⟩
  · exact ⟨_, activeCycle_fetch (hbyte (k := 0) (b := Opcode.out.byte) rfl),
      sameButFaultIp_of_eq (congrArg outputAccumulator (advance_advance 0 1 s))⟩
  · exact ⟨_, activeCycle_fetch (hbyte (k := 0) (b := Opcode.hlt.byte) rfl),
      sameButFaultIp_of_eq (congrArg haltRun (advance_advance 0 1 s))⟩

/-- From FETCH, the cycles of a held instruction lead to FETCH in the state its step answers (R119). -/
theorem ticks_instr {i : Instr} {s t : State} (hready : s.Ready)
    (hbytes : s.holdsBytes (encode i) s.ip.toNat = true) (h : step s = .next t) :
    ∃ u, ticks (cyclesOf i) ⟨s, .fetch⟩ = .next ⟨u, .fetch⟩ ∧ u.sameButFaultIp t := by
  rw [step_eq_exec_of_holdsBytes hready hbytes] at h
  obtain ⟨u, htick, hu⟩ := tick_last_cycle hready hbytes h
  have hpos := (cyclesOf_bounds i).1
  have hfirst : ticks (cyclesOf i - 1) ⟨s, .fetch⟩ = .next (cycleAfter i s (cyclesOf i - 1)) :=
    ticks_cycleAfter_of_holdsBytes hready (Nat.sub_one_lt_of_lt hpos) hbytes
  refine ⟨u, ?_, hu⟩
  rw [← Nat.sub_add_cancel hpos, ticks_add hfirst, ticks_one, htick]

/-- An unrecognized opcode takes its one cycle in FETCH (R119, R131). -/
theorem ticks_unrecognized {s : State} {b : Byte} (hready : s.Ready) (hfetch : fetchDecode s = .ok (.unrecognized b)) :
    ticks 1 ⟨s, .fetch⟩ = .next ⟨stopUnrecognized b s, .fetch⟩ := by
  obtain ⟨hip, hcell, hb⟩ := fetchDecode_unrecognized.mp hfetch
  rw [ticks_one, tick_ready (c := ⟨s, .fetch⟩) hready, activeCycle_fetch (memRead_eq_ok.mpr ⟨hip, hcell⟩)]
  simp [fetchCycle, hb]

/-- A fetch that leaves memory takes the fault in the cycle of the byte it cannot have (R119, R134). -/
theorem ticks_outOfBounds {s : State} {a : Addr} (hready : s.Ready) (hfetch : fetchDecode s = .error (.outOfBounds a)) :
    ∃ k, k < 3 ∧ ticks (k + 1) ⟨s, .fetch⟩ = .next (cycleFault a (s.advance k)) := by
  rw [fetchDecode, decodeWith_error] at hfetch
  obtain ⟨i, k, hk, hreads, herror⟩ := hfetch
  have h3 : k < 3 := hk.trans_le (length_le_three i)
  have hbytes : s.holdsBytes ((encode i).take k) s.ip.toNat = true :=
    (readsAs_memory hready.1 ((List.length_take_le _ _).trans h3.le)).mp hreads
  refine ⟨k, h3, ?_⟩
  rw [ticks_add (ticks_cycleAfter hready (hk.trans_le (length_le_cyclesOf i)) hbytes), ticks_one,
    tick_ready (c := cycleAfter i s k) hready]
  exact activeCycle_readFault (c := cycleAfter i s k) (phaseAfter_ne_store hk) herror

/-- Settles O38: each of the three results of a fetch has its cycles above. -/
theorem cyclesImplementTheStep : Obligations.CyclesImplementTheStep := by
  intro s t hready h
  obtain ⟨hc, ⟨hr, -⟩ | ⟨-, ⟨i, hfetch, -⟩ | ⟨b, hfetch, rfl⟩ | ⟨a, hfetch, rfl⟩⟩⟩ := step_cases h
  · simp [hready.2.1] at hr
  · obtain ⟨hpos, hfour⟩ := cyclesOf_bounds i
    obtain ⟨u, hticks, hu⟩ := ticks_instr hready ((fetchDecode_instr hc).mp hfetch) h
    exact ⟨cyclesOf i, u, hpos, hfour, hticks, hu⟩
  · exact ⟨1, _, le_rfl, by decide, ticks_unrecognized hready hfetch, sameButFaultIp_refl _⟩
  · obtain ⟨k, hk, hticks⟩ := ticks_outOfBounds hready hfetch
    exact ⟨k + 1, _, Nat.succ_pos k, by omega, hticks, sameButFaultIp_of_faulted rfl rfl⟩

/-- Settles O39, by induction on the steps: a step that does not end Faulted leaves both machines in one state, and
one that does is the last. -/
theorem cyclesImplementTheRun : Obligations.CyclesImplementTheRun := by
  intro k s t hc hr h
  induction k generalizing s with
  | zero =>
    cases h
    exact ⟨0, _, Nat.zero_le _, rfl, sameButFaultIp_refl _⟩
  | succ k ih =>
    by_cases hrun : s.run = .running
    · obtain ⟨s₁, hstep, hloop⟩ := runLoop_succ_next hrun h
      obtain ⟨n, u, -, hn, hticks, hu⟩ := cyclesImplementTheStep s s₁ ⟨hc, hr, hrun⟩ hstep
      by_cases hfatal : s₁.endedFatally = true
      · obtain ⟨a, m, hfaulted⟩ := endedFatally_iff.mp hfatal
        obtain rfl : s₁ = t :=
          Host.Outcome.next.inj ((runLoop_stopped (by rw [hfaulted, Run.stopped])).symm.trans hloop)
        exact ⟨n, u, by omega, hticks, hu⟩
      · obtain rfl := (sameButFaultIp_iff_eq (by simpa using hfatal)).mp hu
        obtain ⟨hcfg, hrst⟩ := step_keeps_cfg_rst hstep
        obtain ⟨m, v, hm, hticks', hv⟩ := ih u (hcfg ▸ hc) (hrst.trans hr) hloop
        exact ⟨n + m, v, by omega, (ticks_add hticks).trans hticks', hv⟩
    · obtain rfl : s = t :=
        Host.Outcome.next.inj ((runLoop_stopped (Run.stopped_iff.mpr hrun)).symm.trans h)
      exact ⟨0, _, Nat.zero_le _, rfl, sameButFaultIp_refl _⟩

/-- Settles O40: `ticks_instr` with nothing left open, and no phase before the last cycle is FETCH. -/
theorem cycleCountsOfTheReference : Obligations.CycleCountsOfTheReference := by
  refine ⟨fun s t i hready hbytes h hend => ⟨?_, fun m hpos hm => ?_⟩, fun s t b hready hfetch h => ?_⟩
  · obtain ⟨u, hticks, hu⟩ := ticks_instr hready hbytes h
    obtain rfl := (sameButFaultIp_iff_eq hend).mp hu
    exact hticks
  · obtain ⟨k, rfl⟩ := Nat.exists_eq_add_of_le' hpos
    exact ⟨_, ticks_cycleAfter_of_holdsBytes hready hm hbytes, phaseAfter_succ_ne_fetch hm⟩
  · obtain rfl := Host.Outcome.next.inj ((step_fetch_unrecognized hready hfetch).symm.trans h)
    exact ticks_unrecognized hready hfetch

/-- Settles O41: before its last cycle an STA has only advanced `IP`; a cycle under `rst` is `tick_reset`. -/
theorem resetDiscardsAnUnfinishedStore : Obligations.ResetDiscardsAnUnfinishedStore := by
  refine ⟨fun s a m hready hbytes hm => ?_, fun c hc hr => ⟨?_, ports_of_inactive (active_of_rst hr)⟩⟩
  · exact ⟨_, _, ticks_cycleAfter_of_holdsBytes (i := .storeAccumulator a) hready (Nat.lt_succ_of_le hm) hbytes,
      tick_reset hready.1 rfl, rfl, rfl, rfl⟩
  · exact ⟨_, tick_reset hc hr, rfl, rfl⟩

/-- Settles O44: an access of the sequencer by its phase; the phases of an STA are three reads and STORE. -/
theorem storeCycleWritesTheOperandAddress : Obligations.StoreCycleWritesTheOperandAddress := by
  refine ⟨fun c hwe => ?_, fun s hi lo hready => ?_, fun s a hready hbytes => ⟨fun m hm => ?_, ?_⟩⟩
  · obtain h | h | ⟨hi, lo, hphase, -⟩ := request_cases c
    · simp [ports_of_idle h] at hwe
    · simp [ports_of_read h] at hwe
    · exact ⟨hi, lo, hphase⟩
  · obtain ⟨-, hwe, haddr, hdata⟩ := ports_of_write (request_store hready hi lo)
    exact ⟨hwe, haddr ▸ assembleAddress_toNat hi lo, hdata⟩
  · have hread := request_of_reading (c := cycleAfter (.storeAccumulator a) s m) hready (phaseAfter_ne_store hm)
    obtain ⟨hre, -, haddr⟩ := ports_of_read hread
    exact ⟨_, ticks_cycleAfter_of_holdsBytes (i := .storeAccumulator a) hready (Nat.lt_succ_of_lt hm) hbytes,
      hre, haddr⟩
  · have hwrite : (cycleAfter (.storeAccumulator a) s 3).request = .write a s.acc :=
      (request_store (s := s.advance 3) hready _ _).trans (by rw [assembleAddress_bytes]; rfl)
    obtain ⟨-, hwe, haddr, hdata⟩ := ports_of_write hwrite
    refine ⟨_, ticks_cycleAfter_of_holdsBytes (i := .storeAccumulator a) hready (Nat.lt_succ_self 3) hbytes,
      hwe, haddr, hdata, ?_⟩
    rw [memOob_iff, haddr]
    rfl

end Sys2Proof.Machine
